-- ==== Sys2Proof/Word.lean ====
section
/-! DEFINITION. The bit widths PCMD uses: 32-bit registers, 16-bit channel and sample fields, bytes (rules R9, R10). -/

namespace Sys2Proof

/-- A control register, a command word, a host variable (R9: control register width 32 bits). -/
abbrev Word := BitVec 32

/-- A channel index, a channel count, a bit depth, a beat's data (R9: 16 bits). -/
abbrev Half := BitVec 16

/-- One byte of the input stream (R9: 8 bits). -/
abbrev Byte := BitVec 8

end Sys2Proof
end

