-- ==== Sys2Proof/Machine/Fields.lean ====
section
/-! DEFINITION. The bit fields of a command word (R80) and of CONFIG and LCONFIG (R28, R32). -/

namespace Sys2Proof

/-- The opcode field OP, bits [2:0] of a command word (R25, R80). -/
def opField (w : Word) : BitVec 3 := w.extractLsb' 0 3

/-- The reserved field RSV, bits [31:3] of a command word (R25, R80). -/
def rsvField (w : Word) : BitVec 29 := w.extractLsb' 3 29

/-- CH, bits [15:0] of CONFIG and LCONFIG: the channel count (R28, R32). -/
def chField (w : Word) : Half := w.extractLsb' 0 16

/-- BPS, bits [31:16] of CONFIG and LCONFIG: the bits per sample (R28, R32). -/
def bpsField (w : Word) : Half := w.extractLsb' 16 16

end Sys2Proof
end

