-- ==== Sys2Proof/Machine/Errors.lean ====
section
/-! DEFINITION. The errors of R180: their names and the codes that stand in STATUS.ERR. -/

namespace Sys2Proof.Machine

/-- The rows of R180's table that have a name. -/
inductive ErrName where
  /-- Code 0: success. -/
  | none
  /-- Code 1: END or ERR before the last byte of a READ; ERR during a DEINTERLEAVE. -/
  | truncatedInput
  /-- Code 2: the host's error; PCMD never raises it (R181). -/
  | invalidFormat
  /-- Code 3: LCONFIG.BPS is neither 8 nor 16. -/
  | unsupportedBitDepth
  /-- Code 4: a frame or a word is incomplete at END. -/
  | incompleteData
  /-- Code 5: LCONFIG.CH is 0 (the spec's own, decision D9). -/
  | zeroChannels
  /-- Code 6: an illegal command word (the spec's own, decision D7). -/
  | illegalCommand
deriving DecidableEq, Repr

/-- The code of an error (R180). -/
def ErrName.code : ErrName → BitVec 4
  | .none => 0
  | .truncatedInput => 1
  | .invalidFormat => 2
  | .unsupportedBitDepth => 3
  | .incompleteData => 4
  | .zeroChannels => 5
  | .illegalCommand => 6

/-- The errors the source names (R180's column `source`; section 7 of the source). -/
def ErrName.fromSource : ErrName → Bool
  | .truncatedInput => true
  | .invalidFormat => true
  | .unsupportedBitDepth => true
  | .incompleteData => true
  | .none => false
  | .zeroChannels => false
  | .illegalCommand => false

/-- The error that R180 gives to a STATUS.ERR code PCMD can produce. Codes 2 and 7 to 15 are never produced (R180, R181) and have none here. -/
def ErrName.ofStatus (code : BitVec 4) : Option ErrName :=
  if code = 0 then some .none
  else if code = 1 then some .truncatedInput
  else if code = 3 then some .unsupportedBitDepth
  else if code = 4 then some .incompleteData
  else if code = 5 then some .zeroChannels
  else if code = 6 then some .illegalCommand
  else Option.none

end Sys2Proof.Machine
end

