-- ==== Sys2Proof/Machine/RegisterMap.lean ====
section
/-! DEFINITION. The register map of R22: eight registers at byte offsets 0x00 to 0x1C of the control port. -/

namespace Sys2Proof.Machine

/-- The eight control registers (R22). -/
inductive Reg where
  | cmd | status | config | result | cursor | byteCount | lconfig | id
deriving DecidableEq, Repr

/-- The byte offset of a register (R22). -/
def Reg.offset : Reg → Byte
  | .cmd => 0x00
  | .status => 0x04
  | .config => 0x08
  | .result => 0x0C
  | .cursor => 0x10
  | .byteCount => 0x14
  | .lconfig => 0x18
  | .id => 0x1C

/-- The register at an offset; none where the offset is not a multiple of 4 or lies above 0x1C (R22, R69). -/
def Reg.ofOffset (off : Byte) : Option Reg :=
  if off = 0x00 then some .cmd
  else if off = 0x04 then some .status
  else if off = 0x08 then some .config
  else if off = 0x0C then some .result
  else if off = 0x10 then some .cursor
  else if off = 0x14 then some .byteCount
  else if off = 0x18 then some .lconfig
  else if off = 0x1C then some .id
  else none

end Sys2Proof.Machine
end

