-- ==== Sys2Proof/Machine/HostNotation.lean ====
section
/-! DEFINITION. The host's side as data: its statements and pseudos (R91, R92), its variables, its lists OUT and its decoded-format record. -/

namespace Sys2Proof.Machine

/-- The host variables h0 to h7 (R91). -/
inductive HVar where
  | h0 | h1 | h2 | h3 | h4 | h5 | h6 | h7
deriving DecidableEq, Repr

/-- The values of the host variables, 32 bits each (R91). -/
structure HostVars where
  h0 : Word
  h1 : Word
  h2 : Word
  h3 : Word
  h4 : Word
  h5 : Word
  h6 : Word
  h7 : Word
deriving DecidableEq, Repr

def HostVars.get (vs : HostVars) : HVar → Word
  | .h0 => vs.h0
  | .h1 => vs.h1
  | .h2 => vs.h2
  | .h3 => vs.h3
  | .h4 => vs.h4
  | .h5 => vs.h5
  | .h6 => vs.h6
  | .h7 => vs.h7

def HostVars.set (vs : HostVars) (h : HVar) (v : Word) : HostVars :=
  match h with
  | .h0 => { vs with h0 := v }
  | .h1 => { vs with h1 := v }
  | .h2 => { vs with h2 := v }
  | .h3 => { vs with h3 := v }
  | .h4 => { vs with h4 := v }
  | .h5 => { vs with h5 := v }
  | .h6 => { vs with h6 := v }
  | .h7 => { vs with h7 := v }

/-- The names SAVE stores under: the fields the container protocol reads (R8; log 12). -/
inductive FormatField where
  | riffSize | fmtSize | formatTag | channelCount | sampleRate | averageByteRate | blockAlign | bitsPerSample
deriving DecidableEq, Repr

/-- The host's decoded-format record (R91, SAVE); none is a field nothing has been stored under. -/
structure FormatRecord where
  riffSize : Option Word
  fmtSize : Option Word
  formatTag : Option Word
  channelCount : Option Word
  sampleRate : Option Word
  averageByteRate : Option Word
  blockAlign : Option Word
  bitsPerSample : Option Word
deriving DecidableEq, Repr

def FormatRecord.get (r : FormatRecord) : FormatField → Option Word
  | .riffSize => r.riffSize
  | .fmtSize => r.fmtSize
  | .formatTag => r.formatTag
  | .channelCount => r.channelCount
  | .sampleRate => r.sampleRate
  | .averageByteRate => r.averageByteRate
  | .blockAlign => r.blockAlign
  | .bitsPerSample => r.bitsPerSample

def FormatRecord.save (r : FormatRecord) (f : FormatField) (v : Word) : FormatRecord :=
  match f with
  | .riffSize => { r with riffSize := some v }
  | .fmtSize => { r with fmtSize := some v }
  | .formatTag => { r with formatTag := some v }
  | .channelCount => { r with channelCount := some v }
  | .sampleRate => { r with sampleRate := some v }
  | .averageByteRate => { r with averageByteRate := some v }
  | .blockAlign => { r with blockAlign := some v }
  | .bitsPerSample => { r with bitsPerSample := some v }

/-- The host's lists OUT[k]: keys strictly rising, no empty list (log 16). The key is the 32-bit value `k` of the host variable that OUT names (R91). -/
abbrev OutLists := List (Nat × List Word)

/-- OUT[k]; a list nothing has been appended to is empty. -/
def OutLists.at (k : Nat) : OutLists → List Word
  | [] => []
  | (k', l) :: rest => if k = k' then l else OutLists.at k rest

/-- Append `v` to OUT[k] (R91, OUT). -/
def OutLists.append (k : Nat) (v : Word) : OutLists → OutLists
  | [] => [(k, [v])]
  | (k', l) :: rest =>
    if k < k' then (k, [v]) :: (k', l) :: rest
    else if k = k' then (k', l ++ [v]) :: rest
    else (k', l) :: OutLists.append k v rest

/-- Every key of the lists is at least `lo`, keys rise strictly and no list is empty. -/
def OutLists.wfFrom (lo : Nat) : OutLists → Bool
  | [] => true
  | (k, l) :: rest => decide (lo ≤ k) && !l.isEmpty && OutLists.wfFrom (k + 1) rest

/-- The canonical form of the lists OUT. -/
def OutLists.wf (o : OutLists) : Bool := OutLists.wfFrom 0 o

/-- A host statement (R91). A register is named by its offset, so that an access to an offset with no register can be written too; a label is a
position of the program (log 21). -/
inductive HostStmt where
  /-- `WR REG, imm32`. -/
  | wrImm (off : Byte) (v : Word)
  /-- `WR REG, hN`. -/
  | wrVar (off : Byte) (h : HVar)
  /-- `RD hN, REG`. -/
  | rd (h : HVar) (off : Byte)
  /-- `PUSH b`. -/
  | push (b : Byte)
  /-- `PUSHEND`. -/
  | pushEnd
  /-- `PUSHERR`. -/
  | pushErr
  /-- `TAKE hN`. -/
  | take (h : HVar)
  /-- `OUT hK, hN`. -/
  | out (k n : HVar)
  /-- `SAVE name, hN`. -/
  | save (name : FormatField) (h : HVar)
  /-- `BEQ hN, imm32, label`. -/
  | beq (h : HVar) (v : Word) (label : Nat)
  /-- `BNE hN, imm32, label`. -/
  | bne (h : HVar) (v : Word) (label : Nat)
  /-- `JMP label`. -/
  | jmp (label : Nat)
  /-- `AND hN, imm32`. -/
  | and (h : HVar) (v : Word)
  /-- `SHL hN, imm32`. -/
  | shl (h : HVar) (v : Word)
  /-- `OR hN, hM`. -/
  | or (h m : HVar)
  /-- `FAIL name`. -/
  | fail (e : ErrName)
  /-- `FAIL ERR`. -/
  | failErr
  /-- `HALT`. -/
  | halt
deriving DecidableEq, Repr

/-- A pseudo-instruction of R92. `bad`, `ok` and `label` are positions of the program. -/
inductive Pseudo where
  | deint (c b : Half)
  | rdu16
  | rdu32
  | wait
  | check (label : Nat)
  /-- The four bytes of the tag, in stream order. -/
  | expect4 (t0 t1 t2 t3 : Byte) (bad : Nat)
  | collect (ok bad : Nat)
deriving DecidableEq, Repr

/-- `le32(t)`: the four bytes of a tag packed least-significant byte first (R92). -/
def le32 (t0 t1 t2 t3 : Byte) : Word := t3 ++ t2 ++ t1 ++ t0

/-- `(b << 16) | c`, the CONFIG word of `c` channels of `b`-bit samples (R86). -/
def configWord (b c : Half) : Word := (b.zeroExtend 32 <<< 16) ||| c.zeroExtend 32

/-- The expansion of WAIT at position `base` (R92). -/
def expandWait (base : Nat) : List HostStmt :=
  [.rd .h0 Reg.status.offset, .and .h0 0x1, .bne .h0 0 base]

/-- The expansion of CHECK (R92). -/
def expandCheck (label : Nat) : List HostStmt :=
  [.rd .h0 Reg.status.offset, .and .h0 0xF0, .bne .h0 0 label]

/-- The expansion of a pseudo placed at position `base` (R92): its local labels L and P are positions counted from `base`. -/
def Pseudo.expand (base : Nat) : Pseudo → List HostStmt
  | .deint c b => [.wrImm Reg.config.offset (configWord b c), .wrImm Reg.cmd.offset 0x00000001]
  | .rdu16 => [.wrImm Reg.cmd.offset 0x00000002]
  | .rdu32 => [.wrImm Reg.cmd.offset 0x00000003]
  | .wait => expandWait base
  | .check label => expandCheck label
  | .expect4 t0 t1 t2 t3 bad =>
    [.wrImm Reg.cmd.offset 0x00000003] ++ expandWait (base + 1) ++ expandCheck bad ++
      [.rd .h1 Reg.result.offset, .bne .h1 (le32 t0 t1 t2 t3) bad]
  | .collect ok bad =>
    [.take .h1, .beq .h1 0xFFFFFFFF (base + 4), .out .h7 .h1, .jmp base,
     .rd .h0 Reg.status.offset, .and .h0 0x2, .beq .h0 0 base,
     .rd .h0 Reg.status.offset, .and .h0 0xF0, .bne .h0 0 bad, .jmp ok]

/-- Where a host program stands (R91): running, ended with success at HALT, or ended with the host error of a FAIL. -/
inductive HostStatus where
  | running
  | halted
  | failed (e : ErrName)
deriving DecidableEq, Repr

/-- The host: its program, the position of its next statement, and what its statements write (R91). -/
structure HostAgent where
  prog : List HostStmt
  pos : Nat
  status : HostStatus
  vars : HostVars
  out : OutLists
  record : FormatRecord
deriving DecidableEq, Repr

def HostVars.zero : HostVars :=
  { h0 := 0, h1 := 0, h2 := 0, h3 := 0, h4 := 0, h5 := 0, h6 := 0, h7 := 0 }

def FormatRecord.empty : FormatRecord :=
  { riffSize := none, fmtSize := none, formatTag := none, channelCount := none, sampleRate := none,
    averageByteRate := none, blockAlign := none, bitsPerSample := none }

/-- The host before a program is placed (log 3). -/
def HostAgent.start : HostAgent :=
  { prog := [], pos := 0, status := .running, vars := HostVars.zero, out := [], record := FormatRecord.empty }

/-- The host's next statement; none once the program has ended, or past its last statement (log 3). -/
def HostAgent.fetch (h : HostAgent) : Option HostStmt :=
  match h.status with
  | .running => h.prog[h.pos]?
  | .halted => none
  | .failed _ => none

end Sys2Proof.Machine
end

