-- ==== Sys2Proof/Syntax.lean ====
section
/-! DEFINITION. The commands of PCMD: one constructor a row of spec/opcode_table.json (R2, R81). -/

namespace Sys2Proof

/-- A command. No command word carries an operand (R85), so no constructor has a field. -/
inductive Instr where
  /-- DEINTERLEAVE, `deinterleave(stream, channel_count, bits_per_sample)` (R140). -/
  | deinterleave
  /-- READ_U16, `read_u16_le(stream) -> u16` (R110). -/
  | readU16
  /-- READ_U32, `read_u32_le(stream) -> u32` (R111). -/
  | readU32
deriving DecidableEq, Repr

end Sys2Proof
end

