-- ==== Sys2Proof/WellFormed.lean ====
section
/-! DEFINITION. Well-formedness: of a command (nothing can be wrong, R85), of a command word in format C (R80, R83), and of a host program in the
notation of R91. -/

namespace Sys2Proof

/-- A command has no operand (R85), so every command is well formed. -/
def Instr.wf : Instr → Bool
  | .deinterleave => true
  | .readU16 => true
  | .readU32 => true

/-- A word in format C that stands for a command: RSV = 0 and an assigned OP (R81, R83). -/
def commandWordWf (w : Word) : Bool :=
  rsvField w == 0 && (opField w == 0b001 || opField w == 0b010 || opField w == 0b011)

open Machine in
/-- A host statement of a program of `len` statements: the register it names is one of R22, a label is a position of the
program, and a FAIL names one of the source's four errors (R91). -/
def hostStmtWf (len : Nat) : HostStmt → Bool
  | .wrImm off _ => (Reg.ofOffset off).isSome
  | .wrVar off _ => (Reg.ofOffset off).isSome
  | .rd _ off => (Reg.ofOffset off).isSome
  | .beq _ _ l => decide (l < len)
  | .bne _ _ l => decide (l < len)
  | .jmp l => decide (l < len)
  | .fail e => e.fromSource
  | .push _ => true
  | .pushEnd => true
  | .pushErr => true
  | .take _ => true
  | .out _ _ => true
  | .save _ _ => true
  | .and _ _ => true
  | .shl _ _ => true
  | .or _ _ => true
  | .failErr => true
  | .halt => true

/-- A host program: every statement is well formed. -/
def hostProgramWf (prog : List Machine.HostStmt) : Bool :=
  prog.all (hostStmtWf prog.length)

end Sys2Proof
end

