-- ==== Sys2Proof/Decode.lean ====
section
/-! DEFINITION. Decoding a command word (R80 to R84), total on every 32-bit word and rejecting by name, and the encoder written from the same table. -/

namespace Sys2Proof

/-- Why a command word is illegal (R83). Both end in IllegalCommand; the field test comes first (R82). -/
inductive DecodeReject where
  /-- Bits [31:3] are not all 0. -/
  | reservedBitsSet
  /-- Bits [31:3] are 0 and OP is 0 or 4 to 7. -/
  | unassignedOpcode
deriving DecidableEq, Repr

/-- What a command word decodes to (R82): one of the three commands, or IllegalCommand. -/
inductive Decoded where
  | command (i : Instr)
  | illegal (why : DecodeReject)
deriving DecidableEq, Repr

/-- The decoder of R82. -/
def decode (w : Word) : Decoded :=
  if rsvField w ≠ 0 then .illegal .reservedBitsSet
  else if opField w = 0b001 then .command .deinterleave
  else if opField w = 0b010 then .command .readU16
  else if opField w = 0b011 then .command .readU32
  else .illegal .unassignedOpcode

/-- The opcode of a command (R81). -/
def opcode : Instr → BitVec 3
  | .deinterleave => 0b001
  | .readU16 => 0b010
  | .readU32 => 0b011

/-- The command word in format C: RSV = 0 in bits [31:3], OP in bits [2:0] (R80). -/
def encode (i : Instr) : Word :=
  0#29 ++ opcode i

/-- The command the decoder reads from an instruction of `nbits` bits whose value is `w`, numbered as the opcode table numbers
them: PCMD's one format is one 32-bit word whose bit 0 is the least significant (R80, R10), and bits above `nbits` are 0. -/
def decodeTableWord (nbits w : Nat) : Option Instr :=
  if nbits ≤ 32 ∧ w < 2 ^ nbits then
    match decode (BitVec.ofNat 32 w) with
    | .command i => some i
    | .illegal _ => none
  else none

end Sys2Proof
end

