-- ==== Sys2Proof/Machine/State.lean ====
section
/-! DEFINITION. The state: PCMD's own (R20: the control registers, the sequencing state, OBUF, RES), the control port's last answer, and the
surroundings that R70 and R91 give the steps their inputs from. Plain data; its reset values are R211's. -/

namespace Sys2Proof.Machine

/-- Which command is running (R35). -/
inductive Mode where
  | idle | rd | deint
deriving DecidableEq, Repr

/-- NEED: how many bytes a running READ gathers, 2 or 4 (R35). -/
inductive Need where
  | two | four
deriving DecidableEq, Repr

/-- An input token as the port carries it: 10 bits, {s_kind[1:0], s_data[7:0]} (R87). -/
abbrev RawToken := BitVec 10

/-- What a token means (R87, R88): kind 3 is read as ERR, and the data of END and ERR is ignored. -/
inductive Token where
  | byte (b : Byte)
  | endOfInput
  | err
deriving DecidableEq, Repr

/-- One sample (R39): a signed byte of the 8-bit mode or an unsigned word of the 16-bit mode. -/
inductive Sample where
  | byte (b : Byte)
  | word (w : Half)
deriving DecidableEq, Repr

/-- An output beat (R89): the channel index, the data, and whether the sample is 16 bits wide. -/
structure Beat where
  chan : Half
  data : Half
  wide : Bool
deriving DecidableEq, Repr

/-- The output holding register OBUF (R38): OBUF_V, OBUF_K, OBUF_D, OBUF_W. -/
structure OBuf where
  v : Bool
  k : Half
  d : Half
  w : Bool
deriving DecidableEq, Repr

/-- RES_W, the shape of the result store: 8 or 16 (R39). -/
inductive ResWidth where
  | bits8 | bits16
deriving DecidableEq, Repr

/-- The result store RES (R39): RES_W, RES_N, and for each channel k < RES_N the sequence RES[k] of sample values, oldest first. A value is an integer:
an `s8` when RES_W = 8, a `u16` when RES_W = 16 (R11; log 13). -/
structure ResStore where
  w : ResWidth
  n : Half
  seqs : List (List Int)
deriving DecidableEq, Repr

/-- PCMD's architectural state (R20). STATUS and CURSOR are views of the fields here (R26, R30); ID is hard-wired (R33). -/
structure Pcmd where
  /-- CMD: the last accepted command word (R25). -/
  cmd : Word
  /-- STATUS.DONE (R26). -/
  done : Bool
  /-- STATUS.OVR (R26). -/
  ovr : Bool
  /-- STATUS.ERR (R26, R180). -/
  err : BitVec 4
  /-- STATUS.OP (R26). -/
  op : BitVec 3
  /-- CONFIG (R28). -/
  config : Word
  /-- RESULT (R29). -/
  result : Word
  /-- BYTE_COUNT (R31). -/
  byteCount : Word
  /-- LCONFIG (R32). -/
  lconfig : Word
  /-- MODE (R35). -/
  mode : Mode
  /-- NEED (R35). -/
  need : Need
  /-- ACC (R35). -/
  acc : Word
  /-- NB (R35). -/
  nb : Nat
  /-- CUR, the channel cursor (R35). -/
  cur : Half
  /-- PEND, a half-completed word is present (R35). -/
  pend : Bool
  /-- LOW, the first byte of the half-completed word (R35). -/
  low : Byte
  /-- OBUF (R38). -/
  obuf : OBuf
  /-- RES (R39). -/
  res : ResStore
deriving DecidableEq, Repr

/-- One step to come, by the agent that makes it (R70, R197; log 2, log 18). -/
inductive Event where
  /-- PCMD makes the next step of its running command, if it can (R14). -/
  | pcmd
  /-- The host executes its next statement (R91). -/
  | host
  /-- `rst` (R210). -/
  | rst
  /-- A register write by any master of the control port (R68, R193). -/
  | regWrite (off : Byte) (data : Word)
  /-- A register read by any master of the control port (R68, R193). -/
  | regRead (off : Byte)
  /-- `m_ready = 1`: the beat on offer, if any, transfers (R66). -/
  | take
  /-- The host presents one more token, of any kind (R62, R87). -/
  | present (t : RawToken)
  /-- The host drops the tokens not consumed and presents those of a new stream (R197, R220). -/
  | newStream (ts : List RawToken)
deriving DecidableEq, Repr

structure State where
  /-- The block itself (R20). -/
  pcmd : Pcmd
  /-- `reg_err` as the last register access was answered (R68, R69; log 10). -/
  regErr : Bool
  /-- The presented tokens that PCMD has not consumed, in order (R63, R91). -/
  stream : List RawToken
  /-- The beats transferred over the output port so far, oldest first (R66, R198; log 19). -/
  taken : List Beat
  /-- The host and its program (R91; log 3). -/
  host : HostAgent
  /-- The steps to come, first one first (R70; log 2). -/
  events : List Event
deriving DecidableEq, Repr

/-- Why a step stops with a fault. -/
inductive Fault where
  /-- Raised by DEINTERLEAVE's token step when it must advance the cursor modulo LCONFIG.CH = 0: `a mod n` is given for n > 0 only (R10). Safe: R142
  rejects CH = 0 at acceptance, so no run reaches such a state (log 6). -/
  | cursorModuloZero
deriving DecidableEq, Repr

/-- Why a step is refused. -/
inductive Refusal where
  /-- Raised by an arm of `exec` whose instruction has no meaning yet; no arm does. Safe. -/
  | notModelled (mnemonic : String)
  /-- Raised by the host statement FAIL ERR when STATUS.ERR is 2 or 7 to 15, codes PCMD never produces (R180, R181; 93_implementation_defined.md says
  to refuse). Safe: no run reaches such a state (log 9). -/
  | errorCodeNeverProduced
deriving DecidableEq, Repr

/-- OBUF at reset (R38, R211). -/
def OBuf.reset : OBuf := { v := false, k := 0, d := 0, w := false }

/-- RES at reset: empty, RES_W 8 (R40, R211). -/
def ResStore.reset : ResStore := { w := .bits8, n := 0, seqs := [] }

/-- PCMD at reset (R211): every field has a reset value there. -/
def Pcmd.reset : Pcmd :=
  { cmd := 0, done := false, ovr := false, err := 0, op := 0, config := 0, result := 0, byteCount := 0, lconfig := 0,
    mode := .idle, need := .two, acc := 0, nb := 0, cur := 0, pend := false, low := 0, obuf := OBuf.reset, res := ResStore.reset }

/-- The whole machine right after reset (R211), with nothing placed in its surroundings (log 3). -/
def State.reset : State :=
  { pcmd := Pcmd.reset, regErr := false, stream := [], taken := [], host := HostAgent.start, events := [] }

end Sys2Proof.Machine
end

