-- ==== Sys2Proof/Machine/Operands.lean ====
section
/-! DEFINITION. Every operand form: the tokens of the stream (R87, R88), the latched channel count and bit depth (R85), and the values and beats of
samples (R11, R90, R145). -/

namespace Sys2Proof.Machine

/-- `s_kind[1:0]` (R87). -/
def tokenKind (t : RawToken) : BitVec 2 := t.extractLsb' 8 2

/-- `s_data[7:0]` (R87). -/
def tokenData (t : RawToken) : Byte := t.extractLsb' 0 8

/-- What a token means (R87, R88). -/
def Token.ofRaw (t : RawToken) : Token :=
  if tokenKind t = 0b00 then .byte (tokenData t)
  else if tokenKind t = 0b01 then .endOfInput
  else .err

/-- `BYTE(b) = 0x000 | b` (R87). -/
def rawByte (b : Byte) : RawToken := b.zeroExtend 10

/-- `END = 0x100` (R87). -/
def rawEnd : RawToken := 0x100

/-- `ERR = 0x200` (R87). -/
def rawErr : RawToken := 0x200

/-- How many bytes NEED stands for. -/
def Need.count : Need → Nat
  | .two => 2
  | .four => 4

/-- `c = LCONFIG.CH`, DEINTERLEAVE's channel count (R85). -/
def Pcmd.channels (p : Pcmd) : Half := chField p.lconfig

/-- `b = LCONFIG.BPS`, DEINTERLEAVE's bits per sample (R85). -/
def Pcmd.bits (p : Pcmd) : Half := bpsField p.lconfig

/-- `as_s8(b)`: `b` if `b < 0x80`, else `b - 256` (R11, R144). -/
def asS8 (b : Byte) : Int :=
  if b.toNat < 0x80 then (b.toNat : Int) else (b.toNat : Int) - 256

/-- `zext_16(LOW) | (zext_16(x) << 8)`: the first byte is the low half of the word (R145, R60). -/
def wordOfBytes (low x : Byte) : Half := low.zeroExtend 16 ||| (x.zeroExtend 16 <<< 8)

/-- The value of a sample: an s8 or a u16 (R144, R145). -/
def Sample.value : Sample → Int
  | .byte b => asS8 b
  | .word w => (w.toNat : Int)

/-- `m_data` of a sample's beat (R90): `sext_16(b)` of a byte, the word itself of a word. -/
def Sample.data : Sample → Half
  | .byte b => b.signExtend 16
  | .word w => w

/-- `m_wide` of a sample's beat (R90). -/
def Sample.wide : Sample → Bool
  | .byte _ => false
  | .word _ => true

/-- The beat OBUF offers (R66). -/
def OBuf.beat (o : OBuf) : Beat := { chan := o.k, data := o.d, wide := o.w }

/-- The 33 bits of a beat, {m_wide, m_chan[15:0], m_data[15:0]} (R89). -/
def Beat.word (b : Beat) : BitVec 33 := BitVec.ofBool b.wide ++ b.chan ++ b.data

/-- What TAKE puts into hN for a beat, {15'b0, m_wide, m_data} (R91). -/
def Beat.takeWord (b : Beat) : Word := 0#15 ++ BitVec.ofBool b.wide ++ b.data

/-- RES[k] (R39); empty for a k that is no channel of the store. -/
def ResStore.chan (r : ResStore) (k : Nat) : List Int := (r.seqs[k]?).getD []

/-- RES_W for a bit depth the start check has passed (R140). -/
def ResWidth.ofBits (b : Half) : ResWidth := if b = 8 then .bits8 else .bits16

/-- RES_W as the number the spec gives it, 8 or 16 (R39). -/
def ResWidth.bits : ResWidth → Nat
  | .bits8 => 8
  | .bits16 => 16

end Sys2Proof.Machine
end

