-- ==== Sys2Proof/Machine/Flags.lean ====
section
/-! DEFINITION. STATUS and CURSOR as views of the state (R26, R27, R30), and the signals PCMD drives (R62, R66, R192). -/

namespace Sys2Proof.Machine

/-- STATUS.BUSY = (MODE != IDLE) (R35). -/
def Pcmd.busy (p : Pcmd) : Bool := decide (p.mode ≠ .idle)

/-- STATUS.RVALID = DONE & (ERR == 0) & (OP == 1), computed on every read (R27). -/
def Pcmd.rvalid (p : Pcmd) : Bool := p.done && p.err == 0 && p.op == 1

/-- The STATUS register: bits 0 BUSY, 1 DONE, 2 OVR, 3 RVALID, 7:4 ERR, 10:8 OP, the rest 0 (R26). -/
def Pcmd.status (p : Pcmd) : Word :=
  0#21 ++ p.op ++ p.err ++ BitVec.ofBool p.rvalid ++ BitVec.ofBool p.ovr ++ BitVec.ofBool p.done ++ BitVec.ofBool p.busy

/-- The CURSOR register: bits 15:0 CUR, 16 PEND, 23:17 zero, 31:24 LOW (R30). -/
def Pcmd.cursor (p : Pcmd) : Word :=
  p.low ++ 0#7 ++ BitVec.ofBool p.pend ++ p.cur

/-- `s_ready`: 1 exactly when MODE = RD, or MODE = DEINT and OBUF_V = 0 (R62). -/
def Pcmd.sReady (p : Pcmd) : Bool :=
  match p.mode with
  | .idle => false
  | .rd => true
  | .deint => !p.obuf.v

/-- `m_valid = OBUF_V` (R66). -/
def Pcmd.mValid (p : Pcmd) : Bool := p.obuf.v

/-- The `done` output, equal to STATUS.DONE at every step (R192). -/
def Pcmd.doneOut (p : Pcmd) : Bool := p.done

/-- The command that is running (R35: MODE, and NEED for a READ). -/
def Pcmd.running (p : Pcmd) : Option Instr :=
  match p.mode with
  | .idle => none
  | .rd =>
    match p.need with
    | .two => some .readU16
    | .four => some .readU32
  | .deint => some .deinterleave

end Sys2Proof.Machine
end

