-- ==== Sys2Proof/Machine/Ops.lean ====
section
/-! DEFINITION. The operations the commands share: accepting a word and finishing a command (R184, R187: all there is of taking an exception), the overrun
(R185), `Take` and `Emit` (R13), the control port's read (R69), the beat transfer (R66) and reset (R210). -/

namespace Sys2Proof.Machine

/-- The identification constant of register ID (R33). -/
def idWord : Word := 0x444D4350

/-- `f` on the next state; a fault or a refusal stays. -/
def mapNext {α β φ ρ : Type} (f : α → β) : Host.Outcome α φ ρ → Host.Outcome β φ ρ
  | .next a => .next (f a)
  | .fault r => .fault r
  | .refused r => .refused r

/-- The next state, where there is one. -/
def nextState? {α φ ρ : Type} : Host.Outcome α φ ρ → Option α
  | .next a => some a
  | .fault _ => none
  | .refused _ => none

/-! ### Accepting and finishing a command -/

/-- What every accepted CMD write does before the command's own acceptance part (R184). -/
def Pcmd.acceptWord (w : Word) (p : Pcmd) : Pcmd :=
  { p with cmd := w, done := false, err := 0, ovr := false, op := opField w, cur := 0, pend := false, low := 0, byteCount := 0 }

/-- `Finish(code)` (R13, R187): MODE <- IDLE, DONE <- 1, ERR <- code. With a code other than 0 it is `raise` (R13): PCMD has no other trap entry, and
no return from one (R187, R190). -/
def Pcmd.finish (e : ErrName) (p : Pcmd) : Pcmd :=
  { p with mode := .idle, done := true, err := e.code }

/-- A CMD write while BUSY = 1: OVR <- 1 and nothing else (R185). -/
def Pcmd.overrun (p : Pcmd) : Pcmd := { p with ovr := true }

/-- An illegal word is accepted and finishes at once (R83, R184). -/
def Pcmd.acceptIllegal (w : Word) (p : Pcmd) : Pcmd :=
  (p.acceptWord w).finish .illegalCommand

/-! ### Tokens and samples -/

/-- BYTE_COUNT increments for a BYTE token, modulo 2^32; END and ERR do not count (R13, R31). -/
def Pcmd.countToken (tok : Token) (p : Pcmd) : Pcmd :=
  match tok with
  | .byte _ => { p with byteCount := p.byteCount + 1 }
  | .endOfInput => p
  | .err => p

/-- RES[k] with a value appended (R67). -/
def ResStore.append (k : Half) (v : Int) (r : ResStore) : ResStore :=
  { r with seqs := r.seqs.modify k.toNat (fun seq => seq ++ [v]) }

/-- RES emptied: RES_N <- 0 (R140, R141); RES_W is not written. -/
def ResStore.emptied (r : ResStore) : ResStore := { r with n := 0, seqs := [] }

/-- RES_W <- b; RES_N <- c; RES[k] <- [] for every k < c (R140). -/
def ResStore.start (b c : Half) : ResStore :=
  { w := ResWidth.ofBits b, n := c, seqs := List.replicate c.toNat [] }

/-- `Emit(k, v)` (R13, R67, R90): the sample joins RES[k] and its beat loads OBUF in the same step. It waits for an empty OBUF, which holds whenever
DEINTERLEAVE takes a token (R62). -/
def Pcmd.emit (k : Half) (smp : Sample) (p : Pcmd) : Pcmd :=
  { p with res := p.res.append k smp.value, obuf := { v := true, k := k, d := smp.data, w := smp.wide } }

/-- `(CUR + 1) mod c`, computed without overflow (R146); none for c = 0, which has no value (R10, log 6). -/
def nextCursor (cur c : Half) : Option Half :=
  if c = 0 then none else some (BitVec.ofNat 16 ((cur.toNat + 1) % c.toNat))

/-! ### One step of a command -/

/-- `Take()` and what the command does with the token, in one step (R13, R62): where PCMD is ready and a token is presented it is consumed; otherwise
PCMD holds and the step changes nothing of it (R64, log 5). -/
def consume (onToken : Token → Pcmd → Host.Outcome Pcmd Fault Refusal) (s : State) : Host.Outcome State Fault Refusal :=
  match s.pcmd.sReady, s.stream with
  | true, t :: ts =>
    mapNext (fun p => { s with pcmd := p, stream := ts }) (onToken (Token.ofRaw t) (s.pcmd.countToken (Token.ofRaw t)))
  | true, [] => .next s
  | false, _ => .next s

/-- One step of command `i` (R14; log 1). Where no command runs, the CMD write of its word is accepted (R184) and its acceptance part `start` done.
Where `i` itself runs, its next token step. Where another command runs, the CMD write of `i` is dropped (R185, R186). -/
def commandStep (i : Instr) (start : Pcmd → Pcmd) (onToken : Token → Pcmd → Host.Outcome Pcmd Fault Refusal) (s : State) :
    Host.Outcome State Fault Refusal :=
  match s.pcmd.running with
  | none => .next { s with pcmd := start (s.pcmd.acceptWord (encode i)) }
  | some j => if j = i then consume onToken s else .next { s with pcmd := s.pcmd.overrun }

/-! ### The ports -/

/-- What a read of the control port answers (R22, R23, R69). -/
structure BusReply where
  rdata : Word
  err : Bool
deriving DecidableEq, Repr

/-- The value of a register (R22 to R33). -/
def Pcmd.reg (p : Pcmd) : Reg → Word
  | .cmd => p.cmd
  | .status => p.status
  | .config => p.config
  | .result => p.result
  | .cursor => p.cursor
  | .byteCount => p.byteCount
  | .lconfig => p.lconfig
  | .id => idWord

/-- A read of offset `off`: the register's current value; at an offset with no register `reg_err = 1` and 0 (R23, R69). It has no side effect (R72). -/
def Pcmd.busRead (off : Byte) (p : Pcmd) : BusReply :=
  match Reg.ofOffset off with
  | some r => { rdata := p.reg r, err := false }
  | none => { rdata := 0, err := true }

/-- A beat transfer with `m_ready = 1`: where one is on offer, OBUF_V <- 0 and nothing else of PCMD (R66); the host has the beat (log 19). -/
def State.takeBeat (s : State) : State :=
  if s.pcmd.mValid then
    { s with pcmd := { s.pcmd with obuf := { s.pcmd.obuf with v := false } }, taken := s.taken ++ [s.pcmd.obuf.beat] }
  else s

/-- The reset step: every piece of PCMD's state and `reg_err` at the values of R211; the host's tokens stay presented (R210, log 17). -/
def State.resetStep (s : State) : State := { s with pcmd := Pcmd.reset, regErr := false }

end Sys2Proof.Machine
end

