-- ==== Sys2Proof/Machine/Deinterleave.lean ====
section
/-! DEFINITION. DEINTERLEAVE (41_deinterleave.md). -/

namespace Sys2Proof.Machine

/-- The acceptance part (R140, R141, R142): LCONFIG <- CONFIG, RES emptied, the bit-depth check, the channel check, and the start. -/
def Pcmd.startDeinterleave (p : Pcmd) : Pcmd :=
  let p1 := { p with lconfig := p.config, res := p.res.emptied }
  if p1.bits ≠ 8 ∧ p1.bits ≠ 16 then p1.finish .unsupportedBitDepth
  else if p1.channels = 0 then p1.finish .zeroChannels
  else { p1 with res := ResStore.start p1.bits p1.channels, cur := 0, pend := false, low := 0, mode := .deint }

/-- A sample is complete: Emit(CUR, v), then CUR <- (CUR + 1) mod c (R143, R145, R146). -/
def Pcmd.completeSample (smp : Sample) (p : Pcmd) : Host.Outcome Pcmd Fault Refusal :=
  match nextCursor p.cur p.channels with
  | some cur => .next { p.emit p.cur smp with cur := cur }
  | none => .fault .cursorModuloZero

/-- A BYTE token of a running DEINTERLEAVE: a sample in 8-bit mode (R143), half a word in 16-bit mode (R145). -/
def Pcmd.deinterleaveByte (x : Byte) (p : Pcmd) : Host.Outcome Pcmd Fault Refusal :=
  if p.bits = 8 then p.completeSample (.byte x)
  else if p.pend = false then .next { p with low := x, pend := true }
  else { p with low := 0, pend := false }.completeSample (.word (wordOfBytes p.low x))

/-- The END token: success exactly when CUR = 0 and PEND = 0, else IncompleteData (R150). -/
def Pcmd.deinterleaveEnd (p : Pcmd) : Pcmd :=
  if p.cur = 0 ∧ p.pend = false then p.finish .none else p.finish .incompleteData

/-- One token of a running DEINTERLEAVE (R140); ERR raises TruncatedInput (R149). -/
def deinterleaveToken (tok : Token) (p : Pcmd) : Host.Outcome Pcmd Fault Refusal :=
  match tok with
  | .byte x => p.deinterleaveByte x
  | .endOfInput => .next p.deinterleaveEnd
  | .err => .next (p.finish .truncatedInput)

/-- DEINTERLEAVE (R140). -/
def execDeinterleave (s : State) : Host.Outcome State Fault Refusal :=
  commandStep .deinterleave Pcmd.startDeinterleave deinterleaveToken s

end Sys2Proof.Machine
end

