-- ==== Sys2Proof/Machine/Reader.lean ====
section
/-! DEFINITION. READ_U16 and READ_U32 (40_le_reader.md). -/

namespace Sys2Proof.Machine

/-- The acceptance part of `READ_n` (R112). -/
def Pcmd.startRead (n : Need) (p : Pcmd) : Pcmd :=
  { p with mode := .rd, need := n, acc := 0, nb := 0 }

/-- `ACC | (zext_32(b) << (8 * NB))` (R112). -/
def gather (acc : Word) (nb : Nat) (b : Byte) : Word := acc ||| (b.zeroExtend 32 <<< (8 * nb))

/-- A BYTE token of a running READ (R112, R113). -/
def Pcmd.readByte (b : Byte) (p : Pcmd) : Pcmd :=
  let acc := gather p.acc p.nb b
  if p.nb + 1 = p.need.count then
    { p with acc := acc, nb := p.nb + 1, result := acc }.finish .none
  else { p with acc := acc, nb := p.nb + 1 }

/-- One token of a running READ: a byte is gathered, END and ERR raise TruncatedInput (R112, R114, R88). -/
def readToken (tok : Token) (p : Pcmd) : Host.Outcome Pcmd Fault Refusal :=
  match tok with
  | .byte b => .next (p.readByte b)
  | .endOfInput => .next (p.finish .truncatedInput)
  | .err => .next (p.finish .truncatedInput)

/-- READ_U16 (R110): READ_n with n = 2. -/
def execReadU16 (s : State) : Host.Outcome State Fault Refusal :=
  commandStep .readU16 (Pcmd.startRead .two) readToken s

/-- READ_U32 (R111): READ_n with n = 4. -/
def execReadU32 (s : State) : Host.Outcome State Fault Refusal :=
  commandStep .readU32 (Pcmd.startRead .four) readToken s

end Sys2Proof.Machine
end

