-- ==== Sys2Proof/Machine/Dispatch.lean ====
section
/-! DEFINITION. One arm a command: `exec i s` is the step that command `i` makes in state `s` (R14; log 1). -/

namespace Sys2Proof.Machine

def exec (i : Instr) (s : State) : Host.Outcome State Fault Refusal :=
  match i with
  | .deinterleave => Sys2Proof.Machine.execDeinterleave s
  | .readU16 => Sys2Proof.Machine.execReadU16 s
  | .readU32 => Sys2Proof.Machine.execReadU32 s

end Sys2Proof.Machine
end

