-- ==== Sys2Proof/Machine/ControlPort.lean ====
section
/-! DEFINITION. Register writes (R24, R69): a CMD write issues a command (R184, R185, R191), a CONFIG write sets CONFIG, any other is a bus error. And the
step of the command that is running. -/

namespace Sys2Proof.Machine

/-- A write of `w` to CMD (R191: BUSY before anything else, then the word): dropped while a command runs (R185), else accepted (R184) as the command it
decodes to or as IllegalCommand (R82, R83). -/
def writeCmd (w : Word) (s : State) : Host.Outcome State Fault Refusal :=
  if s.pcmd.busy then .next { s with pcmd := s.pcmd.overrun }
  else
    match decode w with
    | .command i => exec i s
    | .illegal _ => .next { s with pcmd := s.pcmd.acceptIllegal w }

/-- A register write (R24, R68, R69). A write to a read-only register or to an offset with no register answers `reg_err = 1` and changes nothing. -/
def regWrite (off : Byte) (data : Word) (s : State) : Host.Outcome State Fault Refusal :=
  match Reg.ofOffset off with
  | some .cmd => writeCmd data { s with regErr := false }
  | some .config => .next { s with regErr := false, pcmd := { s.pcmd with config := data } }
  | some .status => .next { s with regErr := true }
  | some .result => .next { s with regErr := true }
  | some .cursor => .next { s with regErr := true }
  | some .byteCount => .next { s with regErr := true }
  | some .lconfig => .next { s with regErr := true }
  | some .id => .next { s with regErr := true }
  | none => .next { s with regErr := true }

/-- PCMD's own step: the running command's next one; with MODE = IDLE it does nothing (R195, R212). -/
def pcmdStep (s : State) : Host.Outcome State Fault Refusal :=
  match s.pcmd.running with
  | none => .next s
  | some i => exec i s

/-- PCMD could consume a token now: `s_ready = 1` and `s_valid = 1` (R62). -/
def State.tokenEnabled (s : State) : Bool := s.pcmd.sReady && !s.stream.isEmpty

end Sys2Proof.Machine
end

