-- ==== Sys2Proof/Machine/HostStep.lean ====
section
/-! DEFINITION. What the host's statements do (R91). -/

namespace Sys2Proof.Machine

/-- The host moved to position `l`. -/
def HostAgent.goTo (l : Nat) (h : HostAgent) : HostAgent := { h with pos := l }

/-- The host past its current statement. -/
def HostAgent.advance (h : HostAgent) : HostAgent := h.goTo (h.pos + 1)

/-- `hN <- v`. -/
def HostAgent.setVar (n : HVar) (v : Word) (h : HostAgent) : HostAgent := { h with vars := h.vars.set n v }

/-- Append `hN` to OUT[hK] (R91). -/
def HostAgent.output (k n : HVar) (h : HostAgent) : HostAgent :=
  { h with out := OutLists.append (h.vars.get k).toNat (h.vars.get n) h.out }

/-- `TAKE hN` (R91): with a beat on offer it transfers, hN <- {15'b0, m_wide, m_data} and then h7 <- zext_32(m_chan) (log 15); with none,
hN <- 0xFFFFFFFF and no transfer. -/
def State.hostTake (n : HVar) (s : State) : State :=
  if s.pcmd.mValid then
    { s.takeBeat with
      host := (s.host.setVar n s.pcmd.obuf.beat.takeWord).setVar .h7 (s.pcmd.obuf.k.zeroExtend 32) }
  else { s with host := s.host.setVar n 0xFFFFFFFF }

/-- One statement of the host (R91), the host already past it; a branch then sets the position. -/
def hostExec (st : HostStmt) (s : State) : Host.Outcome State Fault Refusal :=
  match st with
  | .wrImm off v => regWrite off v s
  | .wrVar off n => regWrite off (s.host.vars.get n) s
  | .rd n off =>
    .next { s with regErr := (s.pcmd.busRead off).err, host := s.host.setVar n (s.pcmd.busRead off).rdata }
  | .push b => .next { s with stream := s.stream ++ [rawByte b] }
  | .pushEnd => .next { s with stream := s.stream ++ [rawEnd] }
  | .pushErr => .next { s with stream := s.stream ++ [rawErr] }
  | .take n => .next (s.hostTake n)
  | .out k n => .next { s with host := s.host.output k n }
  | .save name n => .next { s with host := { s.host with record := s.host.record.save name (s.host.vars.get n) } }
  | .beq n v l => .next { s with host := if s.host.vars.get n = v then s.host.goTo l else s.host }
  | .bne n v l => .next { s with host := if s.host.vars.get n ≠ v then s.host.goTo l else s.host }
  | .jmp l => .next { s with host := s.host.goTo l }
  | .and n v => .next { s with host := s.host.setVar n (s.host.vars.get n &&& v) }
  | .shl n v => .next { s with host := s.host.setVar n (s.host.vars.get n <<< v.toNat) }
  | .or n m => .next { s with host := s.host.setVar n (s.host.vars.get n ||| s.host.vars.get m) }
  | .fail e => .next { s with host := { s.host with status := .failed e } }
  | .failErr =>
    match ErrName.ofStatus s.pcmd.err with
    | some e => .next { s with host := { s.host with status := .failed e } }
    | none => .refused .errorCodeNeverProduced
  | .halt => .next { s with host := { s.host with status := .halted } }

/-- The host's step: its next statement; nothing where it has none. -/
def hostStep (s : State) : Host.Outcome State Fault Refusal :=
  match s.host.fetch with
  | none => .next s
  | some st => hostExec st { s with host := s.host.advance }

/-- One listed step (R70, R197). -/
def eventStep (e : Event) (s : State) : Host.Outcome State Fault Refusal :=
  match e with
  | .pcmd => pcmdStep s
  | .host => hostStep s
  | .rst => .next s.resetStep
  | .regWrite off data => regWrite off data s
  | .regRead off => .next { s with regErr := (s.pcmd.busRead off).err }
  | .take => .next s.takeBeat
  | .present t => .next { s with stream := s.stream ++ [t] }
  | .newStream ts => .next { s with stream := ts }

/-- The step where none is listed: PCMD's if it can consume a token, else the host's (R223, log 2). -/
def unlistedStep (s : State) : Host.Outcome State Fault Refusal :=
  if s.tokenEnabled then pcmdStep s else hostStep s

/-- `s` with a CMD write of the word of value `w` as its very next step, and no command running, so that the write is accepted (log 4). -/
def State.issueNext (nbits w : Nat) (s : State) : State :=
  { s with
    pcmd := { s.pcmd with mode := .idle }
    events := .regWrite Reg.cmd.offset (BitVec.ofNat 32 (w % 2 ^ nbits)) :: s.events }

end Sys2Proof.Machine
end

