-- ==== Sys2Proof/Machine/Step.lean ====
section
/-! DEFINITION. One step of the whole: the first listed step, or the next one where none is listed (R70; log 2). -/

namespace Sys2Proof.Machine

def step (s : State) : Host.Outcome State Fault Refusal :=
  match s.events with
  | [] => unlistedStep s
  | e :: es => eventStep e { s with events := es }

/-- `s` with the command word placed where the next step takes it: a CMD write as the first step to come (R75: PCMD fetches nothing; log 4). -/
def State.withFetchWord (s : State) (nbits w : Nat) : State := s.issueNext nbits w

end Sys2Proof.Machine
end

