-- ==== Sys2Proof/Config.lean ====
section
/-! DEFINITION. What an implementation fixes and the spec leaves open: the number of PCMD instances of a platform (R9, decision D29). -/

namespace Sys2Proof

/-- How many PCMD instances a platform holds beside the first. The spec leaves the number OPEN (R9), so this has no body. -/
opaque Config.otherInstances : Nat

/-- N_INSTANCES of R9: OPEN, any value >= 1. -/
def Config.nInstances : Nat := Config.otherInstances + 1

end Sys2Proof
end

