-- ==== Sys2Proof/Machine/Platform.lean ====
section
/-! DEFINITION. A platform of N_INSTANCES independent PCMD instances, each with its own host and stream (R9, R21, R77, R196; log 11). -/

namespace Sys2Proof.Machine

/-- The instances of a platform. -/
structure Platform where
  insts : List State
deriving DecidableEq, Repr

/-- The platform holds N_INSTANCES instances (R9). -/
def Platform.wf (p : Platform) : Prop := p.insts.length = Config.nInstances

/-- One step of instance `k`; the others share nothing with it (R21, R196). -/
def Platform.stepInstance (k : Nat) (p : Platform) : Host.Outcome Platform Fault Refusal :=
  match p.insts[k]? with
  | none => .next p
  | some s => mapNext (fun s' => { insts := p.insts.set k s' }) (step s)

/-- Every instance at reset (R211). -/
def Platform.reset : Platform := { insts := List.replicate Config.nInstances State.reset }

end Sys2Proof.Machine
end

