-- ==== Sys2Proof/Safety.lean ====
section
/-! DEFINITION. What claims are stated in: the machine's invariant, the host's duties (R197, R216, R221), the values a host may use (R115, R157, R197), and
the source's decode of a payload (R147, R154, R156), which a running DEINTERLEAVE follows. -/

namespace Sys2Proof.Machine

/-! ### Runs -/

/-- `n` steps; none where a step faults or is refused. -/
def runSteps : Nat → State → Option State
  | 0, s => some s
  | n + 1, s =>
    match step s with
    | .next t => runSteps n t
    | .fault _ => none
    | .refused _ => none

/-! ### The invariant -/

/-- STATUS (R26): BUSY and DONE are never 1 together, ERR is 0 unless DONE = 1 and is a code PCMD can produce (R180), OP is CMD's low bits, and CMD is the
word of the command that runs. -/
abbrev Pcmd.StatusInv (p : Pcmd) : Prop :=
  (p.busy = true → p.done = false) ∧ (p.done = false → p.err = 0) ∧ (ErrName.ofStatus p.err).isSome = true ∧
    p.op = opField p.cmd ∧ p.running.all (fun i => p.cmd == encode i) = true

/-- A READ (R35, R112): NB is 0 to 4; while one runs NB < NEED, BYTE_COUNT = NB, and ACC holds NB bytes. -/
abbrev Pcmd.ReadInv (p : Pcmd) : Prop :=
  p.nb ≤ 4 ∧
    (p.mode = .rd → p.nb < p.need.count ∧ p.byteCount = BitVec.ofNat 32 p.nb ∧ p.acc.toNat < 256 ^ p.nb)

/-- CURSOR (R30): LOW is 0 unless PEND = 1, and CUR and PEND are 0 unless the last accepted word has OP = 1. -/
abbrev Pcmd.CursorInv (p : Pcmd) : Prop :=
  (p.pend = false → p.low = 0) ∧ (p.op ≠ 1 → p.cur = 0 ∧ p.pend = false)

/-- The channels before `cur` hold one sample more than the last channel, and the others as many (R147): what "no channel imbalance" (R41) is while a
frame is being filled. -/
abbrev ResStore.BalancedAt (r : ResStore) (cur : Nat) : Prop :=
  ∀ k < r.n.toNat, (r.chan k).length = (r.chan (r.n.toNat - 1)).length + (if k < cur then 1 else 0)

/-- The value range of RES_W's samples (R39): an s8 or a u16. -/
def ResWidth.holds (w : ResWidth) (v : Int) : Bool :=
  match w with
  | .bits8 => decide (-128 ≤ v) && decide (v ≤ 127)
  | .bits16 => decide (0 ≤ v) && decide (v ≤ 65535)

/-- RES (R39): RES_N sequences, every value of the shape's type. -/
abbrev ResStore.ShapeInv (r : ResStore) : Prop :=
  r.seqs.length = r.n.toNat ∧ r.seqs.all (fun seq => seq.all r.w.holds) = true

/-- A running DEINTERLEAVE: its operands passed the start checks (R142), 0 <= CUR < c (R146), RES has the shape they give (R140) and is filled in rotation
up to CUR. -/
abbrev Pcmd.DeintInv (p : Pcmd) : Prop :=
  p.mode = .deint →
    p.channels ≠ 0 ∧ (p.bits = 8 ∨ p.bits = 16) ∧ p.cur.toNat < p.channels.toNat ∧ p.res.n = p.channels ∧
      p.res.w = ResWidth.ofBits p.bits ∧ (p.pend = true → p.bits = 16) ∧ p.res.BalancedAt p.cur.toNat

/-- OBUF (R38, R90): it holds a beat only while a DEINTERLEAVE runs (R71, R148), of one of its channels and of its width; an 8-bit sample's data is a
sign-extended byte. -/
abbrev Pcmd.ObufInv (p : Pcmd) : Prop :=
  p.obuf.v = true →
    p.mode = .deint ∧ p.obuf.k.toNat < p.channels.toNat ∧ (p.obuf.w = true ↔ p.bits = 16) ∧
      (p.obuf.w = false → p.obuf.d = (p.obuf.d.setWidth 8).signExtend 16)

/-- A valid result (R27, R40, R41, R150): RES has LCONFIG's shape, CURSOR is 0 and the channels are in balance. -/
abbrev Pcmd.ResultInv (p : Pcmd) : Prop :=
  p.rvalid = true →
    p.channels ≠ 0 ∧ (p.bits = 8 ∨ p.bits = 16) ∧ p.cur = 0 ∧ p.pend = false ∧ p.res.n = p.channels ∧
      p.res.w = ResWidth.ofBits p.bits ∧ p.res.BalancedAt 0

/-- PCMD's invariant. -/
abbrev Pcmd.Inv (p : Pcmd) : Prop :=
  p.StatusInv ∧ p.ReadInv ∧ p.CursorInv ∧ p.res.ShapeInv ∧ p.DeintInv ∧ p.ObufInv ∧ p.ResultInv

/-- The machine's invariant: PCMD's, and the canonical form of the host's lists (log 16). -/
abbrev State.Inv (s : State) : Prop :=
  s.pcmd.Inv ∧ OutLists.wf s.host.out = true

/-! ### What a host may use -/

/-- RESULT as the value of a READ: only after a READ with DONE = 1 and ERR = 0 (R115, R197; log 8). -/
def Pcmd.readResult? (p : Pcmd) : Option Word :=
  if p.done && p.err == 0 && (p.op == 2 || p.op == 3) then some p.result else none

/-- RES as a decoded result: only when RVALID = 1 (R40, R157, R197; log 8). -/
def Pcmd.decoded? (p : Pcmd) : Option ResStore :=
  if p.rvalid then some p.res else none

/-! ### The next step's agent and the host's duties -/

/-- The host statement the next step executes, if any. -/
def State.nextStmt? (s : State) : Option HostStmt :=
  match s.events with
  | [] => if s.tokenEnabled then none else s.host.fetch
  | .host :: _ => s.host.fetch
  | .pcmd :: _ => none
  | .rst :: _ => none
  | .regWrite _ _ :: _ => none
  | .regRead _ :: _ => none
  | .take :: _ => none
  | .present _ :: _ => none
  | .newStream _ :: _ => none

/-- The register write a host statement makes, if it is one. -/
def HostStmt.write? (vars : HostVars) : HostStmt → Option (Byte × Word)
  | .wrImm off v => some (off, v)
  | .wrVar off n => some (off, vars.get n)
  | .rd _ _ => none
  | .push _ => none
  | .pushEnd => none
  | .pushErr => none
  | .take _ => none
  | .out _ _ => none
  | .save _ _ => none
  | .beq _ _ _ => none
  | .bne _ _ _ => none
  | .jmp _ => none
  | .and _ _ => none
  | .shl _ _ => none
  | .or _ _ => none
  | .fail _ => none
  | .failErr => none
  | .halt => none

/-- The register write the next step makes, by the host's statement or by any other master. -/
def State.nextWrite? (s : State) : Option (Byte × Word) :=
  match s.events with
  | .regWrite off data :: _ => some (off, data)
  | _ => s.nextStmt?.bind (HostStmt.write? s.host.vars)

/-- The word the next step writes to CMD, if it does. -/
def State.cmdWrite? (s : State) : Option Word :=
  match s.nextWrite? with
  | some (off, data) => if off = Reg.cmd.offset then some data else none
  | none => none

/-- The next step is PCMD's own. -/
def State.pcmdNext (s : State) : Bool :=
  match s.events with
  | [] => s.tokenEnabled
  | .pcmd :: _ => true
  | _ => false

/-- The token the next step consumes, if any (R62). -/
def State.consumed? (s : State) : Option RawToken :=
  if s.pcmdNext && s.pcmd.sReady then s.stream.head? else none

/-- The next step is a reset. -/
def State.resetNext (s : State) : Bool :=
  match s.events with
  | .rst :: _ => true
  | _ => false

/-- The next step starts a new stream. -/
def State.newStreamNext (s : State) : Bool :=
  match s.events with
  | .newStream _ :: _ => true
  | _ => false

/-- The host's duties that one step shows: no CMD write while a command runs (R216), and no new stream inside a decode (R77, R221). -/
abbrev State.DutyKept (s : State) : Prop :=
  s.pcmd.busy = true → s.cmdWrite? = none ∧ s.newStreamNext = false

/-! ### The source's decode of a payload -/

/-- `b_0 + 256 × b_1 + ...`: the little-endian value of bytes in consumption order (R60, R117). -/
def leValue : List Byte → Nat
  | [] => 0
  | b :: bs => b.toNat + 256 * leValue bs

/-- The 16-bit words of a payload: bytes 0 and 1 form word 0, and so on; a last odd byte forms none (R65, R156). -/
def payloadWords : List Byte → List Half
  | x :: y :: rest => BitVec.ofNat 16 (x.toNat + 256 * y.toNat) :: payloadWords rest
  | [_] => []
  | [] => []

/-- The samples of a payload (R154, R156). -/
def payloadSamples (w : ResWidth) (xs : List Byte) : List Sample :=
  match w with
  | .bits8 => xs.map Sample.byte
  | .bits16 => (payloadWords xs).map Sample.word

/-- The values that go to channel `k` of `c`: those of the samples whose number `i` has `i mod c = k`, in order (R147). `i` is the first sample's number. -/
def channelValues (c k : Nat) : Nat → List Sample → List Int
  | _, [] => []
  | i, smp :: rest => if i % c = k then smp.value :: channelValues c k (i + 1) rest else channelValues c k (i + 1) rest

/-- The beats of the samples (R154, R156): sample `i` on channel `i mod c`. -/
def sampleBeats (c : Nat) : Nat → List Sample → List Beat
  | _, [] => []
  | i, smp :: rest =>
    { chan := BitVec.ofNat 16 (i % c), data := smp.data, wide := smp.wide } :: sampleBeats c (i + 1) rest

/-- PEND after a payload: in 16-bit mode, an odd number of bytes (R156). -/
def payloadPend (w : ResWidth) (xs : List Byte) : Bool :=
  match w with
  | .bits8 => false
  | .bits16 => decide (xs.length % 2 = 1)

/-- LOW after a payload: the last byte of an odd one in 16-bit mode, else 0 (R156). -/
def payloadLow (w : ResWidth) (xs : List Byte) : Byte :=
  if payloadPend w xs then xs.getLast?.getD 0 else 0

/-- The frame size `c × (b / 8)` (R15, R153). -/
def frameSize (w : ResWidth) (c : Nat) : Nat := c * (w.bits / 8)

/-- What a DEINTERLEAVE of `c` channels of width `w` holds once it has consumed the payload bytes `xs` (R154, R156). -/
abbrev Pcmd.HasDecoded (w : ResWidth) (c : Half) (xs : List Byte) (p : Pcmd) : Prop :=
  c ≠ 0 ∧ p.channels = c ∧ p.bits = BitVec.ofNat 16 w.bits ∧ p.byteCount = BitVec.ofNat 32 xs.length ∧
    p.cur = BitVec.ofNat 16 ((payloadSamples w xs).length % c.toNat) ∧ p.pend = payloadPend w xs ∧ p.low = payloadLow w xs ∧
    p.res = { w := w, n := c, seqs := (List.range c.toNat).map (fun k => channelValues c.toNat k 0 (payloadSamples w xs)) }

/-- A DEINTERLEAVE runs and has consumed `xs`; `pre` are the beats taken before its first, and every beat since is taken or in OBUF (R67, R148). -/
abbrev State.Decoding (w : ResWidth) (c : Half) (pre : List Beat) (xs : List Byte) (s : State) : Prop :=
  s.pcmd.mode = .deint ∧ s.pcmd.op = 1 ∧ s.pcmd.done = false ∧ s.pcmd.err = 0 ∧ s.pcmd.HasDecoded w c xs ∧
    s.taken ++ (if s.pcmd.obuf.v then [s.pcmd.obuf.beat] else []) = pre ++ sampleBeats c.toNat 0 (payloadSamples w xs)

/-- A DEINTERLEAVE that consumed `xs` has finished with error `e`, every beat taken (R71, R150). -/
abbrev State.Decoded (w : ResWidth) (c : Half) (pre : List Beat) (xs : List Byte) (e : ErrName) (s : State) : Prop :=
  s.pcmd.mode = .idle ∧ s.pcmd.op = 1 ∧ s.pcmd.done = true ∧ s.pcmd.err = e.code ∧ s.pcmd.HasDecoded w c xs ∧
    s.pcmd.obuf.v = false ∧ s.taken = pre ++ sampleBeats c.toNat 0 (payloadSamples w xs)

/-- The error END gives after the payload `xs` (R153): none when its length is a multiple of the frame size, else IncompleteData. -/
def endError (w : ResWidth) (c : Nat) (xs : List Byte) : ErrName :=
  if xs.length % frameSize w c = 0 then .none else .incompleteData

/-- The steps of a host that takes every beat at once, for `n` payload bytes. -/
def promptHost : Nat → List Event
  | 0 => [.pcmd]
  | n + 1 => .pcmd :: .take :: promptHost n

end Sys2Proof.Machine
end

