-- ==== Sys2Proof/Certificates/Slice0/Obligations.lean ====
section
/-! DEFINITION. The statements for the provers. Each docstring names the rules of spec/ it formalises; `log n` is a row of notes/assumptions. -/

open Sys2Proof Sys2Proof.Machine

/-! ### Encodings -/

/-- R81: the three words of the table and their commands. -/
def Obligations.TableWordsDecode : Prop :=
  decode 0x00000001 = .command .deinterleave ∧ decode 0x00000002 = .command .readU16 ∧ decode 0x00000003 = .command .readU32

/-- R80, R81, R82: decode and encode agree, in both directions, and through the table's numbering. -/
def Obligations.DecodeEncodeAgree : Prop :=
  (∀ i : Instr, i.wf = true → commandWordWf (encode i) = true ∧ decode (encode i) = .command i ∧
    decodeTableWord 32 (encode i).toNat = some i) ∧
  (∀ (w : Word) (i : Instr), decode w = .command i → encode i = w) ∧
  (∀ w : Word, commandWordWf w = true → ∃ i : Instr, decode w = .command i)

/-- R84: every word other than the three of the table is illegal, and those three are not. -/
def Obligations.OtherWordsAreIllegal : Prop :=
  ∀ w : Word, (∃ why, decode w = .illegal why) ↔ (w ≠ 0x00000001 ∧ w ≠ 0x00000002 ∧ w ≠ 0x00000003)

/-- R83: a word with an unassigned OP or a nonzero RSV, written to CMD while idle, is accepted and finishes at once with ERR = 6; no token is consumed, no
beat emitted, and RESULT, LCONFIG and RES stay; CMD, OP, CURSOR and BYTE_COUNT are updated as for any accepted command. -/
def Obligations.IllegalWordFinishesAtOnce : Prop :=
  ∀ (s : State) (w : Word) (es : List Event), s.events = .regWrite 0x00 w :: es → s.pcmd.mode = .idle →
    (w.toNat % 8 ∈ [0, 4, 5, 6, 7] ∨ w.toNat / 8 ≠ 0) →
    step s = .next { s with
      events := es, regErr := false,
      pcmd := { s.pcmd with cmd := w, done := true, ovr := false, err := 6, op := w.extractLsb' 0 3, cur := 0, pend := false,
                            low := 0, byteCount := 0, mode := .idle } }

/-! ### Steps and commands -/

/-- A write of a word to CMD by any master while no command runs makes the step `exec` of the command the word decodes to, past the listed step and with
`reg_err = 0` (R82, R184). -/
def Obligations.StepRunsDecodedCommand : Prop :=
  ∀ (s : State) (w : Word) (i : Instr) (es : List Event), s.events = .regWrite 0x00 w :: es → s.pcmd.mode = .idle →
    decode w = .command i → step s = exec i { s with events := es, regErr := false }

/-- The same for the host's statements `WR CMD, imm32` and `WR CMD, hN` (R91): the host is past it. -/
def Obligations.HostCommandWriteRunsDecodedCommand : Prop :=
  ∀ (s : State) (st : HostStmt) (w : Word) (i : Instr) (es : List Event), s.events = .host :: es → s.host.fetch = some st →
    st.write? s.host.vars = some (0x00, w) → s.pcmd.mode = .idle → decode w = .command i →
    step s = exec i { s with events := es, regErr := false, host := { s.host with pos := s.host.pos + 1 } }

/-- PCMD's own step is `exec` of the command that runs, where it is listed and, with none listed, where a token can be consumed (R14, R62; log 2). -/
def Obligations.StepRunsRunningCommand : Prop :=
  ∀ (s : State) (i : Instr), s.pcmd.running = some i →
    (∀ es, s.events = .pcmd :: es → step s = exec i { s with events := es }) ∧
    (s.events = [] → s.pcmd.sReady = true → s.stream ≠ [] → step s = exec i s)

/-- The word placed by `withFetchWord` is run by the very next step (log 4). -/
def Obligations.PlacedWordRunsNext : Prop :=
  ∀ (s : State) (i : Instr), step (s.withFetchWord 32 (encode i).toNat) =
    exec i { s with regErr := false, pcmd := { s.pcmd with mode := .idle } }

/-- R185: a CMD write of any word while a command runs sets OVR, answers `reg_err = 0` and changes nothing else. -/
def Obligations.BusyCommandWriteSetsOverrun : Prop :=
  ∀ (s : State) (w : Word) (es : List Event), s.events = .regWrite 0x00 w :: es → s.pcmd.mode ≠ .idle →
    step s = .next { s with events := es, regErr := false, pcmd := { s.pcmd with ovr := true } }

/-- R112 and R184: at IDLE, READ_U16 and READ_U32 are accepted and start with NEED 2 and 4. -/
def Obligations.ReadsAreAccepted : Prop :=
  ∀ s : State, s.pcmd.mode = .idle →
    exec .readU16 s = .next { s with
      pcmd := { s.pcmd with cmd := 0x00000002, done := false, ovr := false, err := 0, op := 2, cur := 0, pend := false, low := 0,
                            byteCount := 0, mode := .rd, need := .two, acc := 0, nb := 0 } } ∧
    exec .readU32 s = .next { s with
      pcmd := { s.pcmd with cmd := 0x00000003, done := false, ovr := false, err := 0, op := 3, cur := 0, pend := false, low := 0,
                            byteCount := 0, mode := .rd, need := .four, acc := 0, nb := 0 } }

/-- R140, R141 and R184: at IDLE, with 8 or 16 bits per sample and at least one channel in CONFIG, DEINTERLEAVE is accepted and starts. -/
def Obligations.DeinterleaveStarts : Prop :=
  ∀ (s : State) (b c : Half), s.pcmd.mode = .idle → s.pcmd.config = b ++ c → (b = 8 ∨ b = 16) → c ≠ 0 →
    exec .deinterleave s = .next { s with
      pcmd := { s.pcmd with cmd := 0x00000001, done := false, ovr := false, err := 0, op := 1, byteCount := 0,
                            lconfig := s.pcmd.config, cur := 0, pend := false, low := 0, mode := .deint,
                            res := { w := if b = 8 then .bits8 else .bits16, n := c, seqs := List.replicate c.toNat [] } } }

/-- R142, R152: the start checks of DEINTERLEAVE at acceptance, whatever tokens are presented: UnsupportedBitDepth for every other bit depth whatever `c`
is, then ZeroChannels. No token is consumed, no beat emitted, RES is empty and CURSOR 0. That RES_W stays is the model's choice (log 13). -/
def Obligations.DeinterleaveStartChecks : Prop :=
  ∀ (s : State) (b c : Half), s.pcmd.mode = .idle → s.pcmd.config = b ++ c →
    (b ≠ 8 ∧ b ≠ 16 → exec .deinterleave s = .next { s with
      pcmd := { s.pcmd with cmd := 0x00000001, done := true, ovr := false, err := 3, op := 1, byteCount := 0, mode := .idle,
                            lconfig := s.pcmd.config, cur := 0, pend := false, low := 0,
                            res := { s.pcmd.res with n := 0, seqs := [] } } }) ∧
    ((b = 8 ∨ b = 16) → c = 0 → exec .deinterleave s = .next { s with
      pcmd := { s.pcmd with cmd := 0x00000001, done := true, ovr := false, err := 5, op := 1, byteCount := 0, mode := .idle,
                            lconfig := s.pcmd.config, cur := 0, pend := false, low := 0,
                            res := { s.pcmd.res with n := 0, seqs := [] } } })

/-- R112, R113: a BYTE token of a running READ_U16 or READ_U32 lands in ACC; the `n`-th finishes the command and becomes part of RESULT. The value of ACC is
stated for a READ whose ACC holds the NB bytes gathered so far, as every reached state has it. -/
def Obligations.ReadStepGathersByte : Prop :=
  ∀ (s : State) (i : Instr) (n : Nat) (b : Byte) (ts : List RawToken),
    s.pcmd.mode = .rd → (i = .readU16 ∧ s.pcmd.need = .two ∧ n = 2 ∨ i = .readU32 ∧ s.pcmd.need = .four ∧ n = 4) →
    s.stream = rawByte b :: ts → s.pcmd.nb < n → s.pcmd.acc.toNat < 256 ^ s.pcmd.nb →
    ∃ acc : Word, acc.toNat = s.pcmd.acc.toNat + b.toNat * 256 ^ s.pcmd.nb ∧
      (s.pcmd.nb + 1 < n → exec i s = .next { s with
        stream := ts,
        pcmd := { s.pcmd with byteCount := s.pcmd.byteCount + 1, acc := acc, nb := s.pcmd.nb + 1 } }) ∧
      (s.pcmd.nb + 1 = n → exec i s = .next { s with
        stream := ts,
        pcmd := { s.pcmd with byteCount := s.pcmd.byteCount + 1, acc := acc, nb := s.pcmd.nb + 1, result := acc, mode := .idle,
                              done := true, err := 0 } })

/-- R114 (and R88 for a READ): an END, ERR or kind-3 token before the last byte is consumed and ends the READ with TruncatedInput; RESULT stays (R115). -/
def Obligations.ReadFailsOnOtherToken : Prop :=
  ∀ (s : State) (i : Instr) (t : RawToken) (ts : List RawToken), s.pcmd.mode = .rd → s.pcmd.running = some i →
    s.stream = t :: ts → t.extractLsb' 8 2 ≠ 0 →
    exec i s = .next { s with stream := ts, pcmd := { s.pcmd with mode := .idle, done := true, err := 1 } }

/-- R64, R219: a running command that needs a token holds where none is presented, and a DEINTERLEAVE holds while OBUF has a beat: its step changes nothing
(log 5). -/
def Obligations.CommandHolds : Prop :=
  ∀ (s : State) (i : Instr), s.pcmd.running = some i →
    (s.stream = [] ∨ i = .deinterleave ∧ s.pcmd.obuf.v = true) →
    exec i s = .next s ∧ ∀ es, s.events = .pcmd :: es → step s = .next { s with events := es }

/-- R143, R144: in 8-bit mode a BYTE token is one sample. Its signed value joins RES[CUR], its beat carries the byte sign-extended, and the cursor
advances, all in the step that consumes it. -/
def Obligations.DeinterleaveByteIsSample : Prop :=
  ∀ (s : State) (x : Byte) (c : Half) (ts : List RawToken), s.pcmd.mode = .deint → s.pcmd.lconfig = 8#16 ++ c → c ≠ 0 →
    s.pcmd.obuf.v = false → s.stream = rawByte x :: ts →
    exec .deinterleave s = .next { s with
      stream := ts,
      pcmd := { s.pcmd with
        byteCount := s.pcmd.byteCount + 1,
        res := { s.pcmd.res with
          seqs := s.pcmd.res.seqs.modify s.pcmd.cur.toNat
            (fun seq => seq ++ [if x.toNat ≤ 0x7F then (x.toNat : Int) else (x.toNat : Int) - 256]) },
        obuf := { v := true, k := s.pcmd.cur, d := x.signExtend 16, w := false },
        cur := BitVec.ofNat 16 ((s.pcmd.cur.toNat + 1) % c.toNat) } }

/-- R145: in 16-bit mode the first byte of a pair is held in LOW with PEND = 1; the second completes the unsigned word, first byte low, which joins RES[CUR]
and is emitted with `m_wide = 1`. The cursor advances on the second byte only (R146). -/
def Obligations.DeinterleavePairIsSample : Prop :=
  ∀ (s : State) (x : Byte) (c : Half) (ts : List RawToken), s.pcmd.mode = .deint → s.pcmd.lconfig = 16#16 ++ c → c ≠ 0 →
    s.pcmd.obuf.v = false → s.stream = rawByte x :: ts →
    (s.pcmd.pend = false → exec .deinterleave s = .next { s with
      stream := ts,
      pcmd := { s.pcmd with byteCount := s.pcmd.byteCount + 1, low := x, pend := true } }) ∧
    (s.pcmd.pend = true → exec .deinterleave s = .next { s with
      stream := ts,
      pcmd := { s.pcmd with
        byteCount := s.pcmd.byteCount + 1, low := 0, pend := false,
        res := { s.pcmd.res with
          seqs := s.pcmd.res.seqs.modify s.pcmd.cur.toNat
            (fun seq => seq ++ [((s.pcmd.low.toNat + 256 * x.toNat : Nat) : Int)]) },
        obuf := { v := true, k := s.pcmd.cur, d := x ++ s.pcmd.low, w := true },
        cur := BitVec.ofNat 16 ((s.pcmd.cur.toNat + 1) % c.toNat) } })

/-- R150: the END token is consumed and finishes DEINTERLEAVE: success exactly when CUR = 0 and PEND = 0, otherwise IncompleteData. -/
def Obligations.DeinterleaveEndChecksFrame : Prop :=
  ∀ (s : State) (t : RawToken) (ts : List RawToken), s.pcmd.mode = .deint → s.pcmd.obuf.v = false → s.stream = t :: ts →
    t.extractLsb' 8 2 = 1 →
    (s.pcmd.cur = 0 ∧ s.pcmd.pend = false → exec .deinterleave s = .next { s with
      stream := ts, pcmd := { s.pcmd with mode := .idle, done := true, err := 0 } }) ∧
    (¬ (s.pcmd.cur = 0 ∧ s.pcmd.pend = false) → exec .deinterleave s = .next { s with
      stream := ts, pcmd := { s.pcmd with mode := .idle, done := true, err := 4 } })

/-- R149: an ERR or kind-3 token finishes DEINTERLEAVE with TruncatedInput; that token is consumed and no further one. -/
def Obligations.DeinterleaveFailsOnErrToken : Prop :=
  ∀ (s : State) (t : RawToken) (ts : List RawToken), s.pcmd.mode = .deint → s.pcmd.obuf.v = false → s.stream = t :: ts →
    (t.extractLsb' 8 2 = 2 ∨ t.extractLsb' 8 2 = 3) →
    exec .deinterleave s = .next { s with stream := ts, pcmd := { s.pcmd with mode := .idle, done := true, err := 1 } }

/-! ### Frames and isolation -/

/-- R116: READ_U16 and READ_U32 emit no beat and change neither LCONFIG, RES nor CONFIG; they do not consult CONFIG. Of the stream at most its first token
goes, and the host, the beats taken and the steps to come stay. That `reg_err` stays over a command's own step is the model's choice (log 10). -/
def Obligations.ReadFrame : Prop :=
  ∀ (s : State) (i : Instr), (i = .readU16 ∨ i = .readU32) →
    (∀ t, exec i s = .next t →
      t.pcmd.lconfig = s.pcmd.lconfig ∧ t.pcmd.res = s.pcmd.res ∧ t.pcmd.config = s.pcmd.config ∧ t.pcmd.obuf = s.pcmd.obuf ∧
      (s.pcmd.mode ≠ .idle → t.pcmd.cmd = s.pcmd.cmd ∧ t.pcmd.op = s.pcmd.op ∧ t.pcmd.cur = s.pcmd.cur ∧
        t.pcmd.pend = s.pcmd.pend ∧ t.pcmd.low = s.pcmd.low ∧ t.pcmd.need = s.pcmd.need) ∧
      (s.pcmd.mode = .idle → t.pcmd.result = s.pcmd.result ∧ t.stream = s.stream) ∧
      (t.stream = s.stream ∨ t.stream = s.stream.tail) ∧
      t.taken = s.taken ∧ t.host = s.host ∧ t.regErr = s.regErr ∧ t.events = s.events) ∧
    (∀ v : Word, exec i { s with pcmd := { s.pcmd with config := v } } =
      mapNext (fun t => { t with pcmd := { t.pcmd with config := v } }) (exec i s))

/-- The frame of DEINTERLEAVE (R140, R29): RESULT, CONFIG, NEED, ACC and NB stay, and CMD, OP, LCONFIG, RES_W and RES_N stay once it runs; of the stream at
most its first token goes, none at acceptance; the host, the beats taken and the steps to come stay. That NEED, ACC and NB stay during DEINTERLEAVE (log 14)
and that `reg_err` stays over a command's own step (log 10) are the model's choice. -/
def Obligations.DeinterleaveFrame : Prop :=
  ∀ s t : State, exec .deinterleave s = .next t →
    t.pcmd.result = s.pcmd.result ∧ t.pcmd.config = s.pcmd.config ∧ t.pcmd.need = s.pcmd.need ∧ t.pcmd.acc = s.pcmd.acc ∧
    t.pcmd.nb = s.pcmd.nb ∧
    (s.pcmd.mode ≠ .idle → t.pcmd.cmd = s.pcmd.cmd ∧ t.pcmd.op = s.pcmd.op ∧ t.pcmd.lconfig = s.pcmd.lconfig ∧
      t.pcmd.res.w = s.pcmd.res.w ∧ t.pcmd.res.n = s.pcmd.res.n) ∧
    (s.pcmd.mode = .idle → t.pcmd.obuf = s.pcmd.obuf ∧ t.stream = s.stream) ∧
    (t.stream = s.stream ∨ t.stream = s.stream.tail) ∧
    t.taken = s.taken ∧ t.host = s.host ∧ t.regErr = s.regErr ∧ t.events = s.events

/-- A byte that completes a sample changes RES[CUR] only: every other channel's sequence stays as it was (R143, R145, R67). -/
def Obligations.OtherChannelsUntouched : Prop :=
  ∀ (s t : State) (k : Nat), s.pcmd.mode = .deint → exec .deinterleave s = .next t → k ≠ s.pcmd.cur.toNat →
    t.pcmd.res.chan k = s.pcmd.res.chan k

/-- R218: a CONFIG write while a DEINTERLEAVE runs changes CONFIG and not LCONFIG, the running command goes on as without it, and the next DEINTERLEAVE
latches the new value. -/
def Obligations.ConfigWriteSparesRunningDeinterleave : Prop :=
  ∀ (s : State) (v : Word) (es : List Event),
    (s.pcmd.mode = .deint →
      (s.events = .regWrite 0x08 v :: es → step s = .next { s with
        events := es, regErr := false, pcmd := { s.pcmd with config := v } }) ∧
      exec .deinterleave { s with pcmd := { s.pcmd with config := v } } =
        mapNext (fun t => { t with pcmd := { t.pcmd with config := v } }) (exec .deinterleave s)) ∧
    (s.pcmd.mode = .idle → ∃ t, exec .deinterleave { s with pcmd := { s.pcmd with config := v } } = .next t ∧
      t.pcmd.lconfig = v)

/-- R21, R196: a step of instance `k` of a platform is `step` on that instance's own state, where it stops as where it goes on, and leaves every other
instance and their number as they were; a number with no instance changes nothing (log 11, the model's choice of what a platform is). -/
def Obligations.InstancesShareNothing : Prop :=
  ∀ (p : Platform) (k : Nat),
    (∀ s, p.insts[k]? = some s →
      (∀ s', step s = .next s' → ∃ q, p.stepInstance k = .next q ∧ q.insts[k]? = some s') ∧
      (∀ r, step s = .fault r → p.stepInstance k = .fault r) ∧
      (∀ r, step s = .refused r → p.stepInstance k = .refused r)) ∧
    (p.insts[k]? = none → p.stepInstance k = .next p) ∧
    (∀ q j, p.stepInstance k = .next q → q.insts.length = p.insts.length ∧ (j ≠ k → q.insts[j]? = p.insts[j]?))

/-! ### Ports and registers -/

/-- R26, R27, R192: STATUS as a number made of its fields, and the `done` output as its bit 1. -/
def Obligations.StatusLayout : Prop :=
  ∀ p : Pcmd, p.status.toNat =
    (if p.mode = .idle then 0 else 1) + 2 * p.done.toNat + 4 * p.ovr.toNat +
      8 * (if p.done = true ∧ p.err = 0 ∧ p.op = 1 then 1 else 0) + 16 * p.err.toNat + 256 * p.op.toNat ∧
    p.doneOut = p.status.getLsbD 1

/-- R30: CURSOR as a number made of its fields. -/
def Obligations.CursorLayout : Prop :=
  ∀ p : Pcmd, p.cursor.toNat = p.cur.toNat + 2 ^ 16 * p.pend.toNat + 2 ^ 24 * p.low.toNat

/-- R22, R23, R33: what a read of each of the eight offsets answers. -/
def Obligations.RegisterReads : Prop :=
  ∀ p : Pcmd,
    p.busRead 0x00 = { rdata := p.cmd, err := false } ∧ p.busRead 0x04 = { rdata := p.status, err := false } ∧
    p.busRead 0x08 = { rdata := p.config, err := false } ∧ p.busRead 0x0C = { rdata := p.result, err := false } ∧
    p.busRead 0x10 = { rdata := p.cursor, err := false } ∧ p.busRead 0x14 = { rdata := p.byteCount, err := false } ∧
    p.busRead 0x18 = { rdata := p.lconfig, err := false } ∧ p.busRead 0x1C = { rdata := 0x444D4350, err := false }

/-- R69: which accesses answer `reg_err = 1`; such an access changes no state and a read of that kind returns 0; every other answers `reg_err = 0`. The last
clause says it of a write by the host's `WR` as well as by any other master. -/
def Obligations.BusErrors : Prop :=
  ∀ (s : State) (off : Byte) (data : Word) (es : List Event),
    (let bad := off.toNat % 4 ≠ 0 ∨ off.toNat > 0x1C
     ((bad → s.pcmd.busRead off = { rdata := 0, err := true }) ∧ (¬ bad → (s.pcmd.busRead off).err = false) ∧
      (s.events = .regRead off :: es → step s = .next { s with events := es, regErr := decide bad }))) ∧
    (let bad := off.toNat % 4 ≠ 0 ∨ off.toNat > 0x1C ∨ off.toNat ∈ [0x04, 0x0C, 0x10, 0x14, 0x18, 0x1C]
     (s.events = .regWrite off data :: es → bad → step s = .next { s with events := es, regErr := true }) ∧
     (s.nextWrite? = some (off, data) → ∀ t, step s = .next t → t.regErr = decide bad ∧
       (bad → t.pcmd = s.pcmd ∧ t.stream = s.stream ∧ t.taken = s.taken ∧ t.host.vars = s.host.vars)))

/-- R28: every 32-bit value written to CONFIG is accepted at any time and read back as written; nothing else of PCMD changes. The first clause is the write as
a listed step, the second a write by the host's `WR CONFIG, imm32` or `WR CONFIG, hN` (R91) as by any other master: of the host only its position moves. -/
def Obligations.ConfigWriteReadsBack : Prop :=
  ∀ (s : State) (v : Word),
    (∀ es, s.events = .regWrite 0x08 v :: es →
      ∃ t, step s = .next t ∧ t = { s with events := es, regErr := false, pcmd := { s.pcmd with config := v } } ∧
        t.pcmd.busRead 0x08 = { rdata := v, err := false }) ∧
    (s.nextWrite? = some (0x08, v) →
      ∃ t, step s = .next t ∧ t.pcmd = { s.pcmd with config := v } ∧ t.regErr = false ∧ t.stream = s.stream ∧ t.taken = s.taken ∧
        t.events = s.events.tail ∧ (t.host = s.host ∨ t.host = { s.host with pos := s.host.pos + 1 }) ∧
        t.pcmd.busRead 0x08 = { rdata := v, err := false })

/-- R66: a beat transfers in a step with `m_valid = 1` and `m_ready = 1`; the step clears OBUF_V and changes nothing else of PCMD; with no beat on offer
it changes nothing (the record of the beats taken is the model's, log 19). -/
def Obligations.BeatTransferClearsObuf : Prop :=
  ∀ (s : State) (es : List Event), s.events = .take :: es →
    (s.pcmd.obuf.v = true → step s = .next { s with
      events := es, pcmd := { s.pcmd with obuf := { s.pcmd.obuf with v := false } },
      taken := s.taken ++ [{ chan := s.pcmd.obuf.k, data := s.pcmd.obuf.d, wide := s.pcmd.obuf.w }] }) ∧
    (s.pcmd.obuf.v = false → step s = .next { s with events := es })

/-- R210, R211: a reset step in any state sets every piece of PCMD's state to its reset value and consumes no token; the model's reset state is that
state. -/
def Obligations.ResetSetsEveryRegister : Prop :=
  (∀ (s : State) (es : List Event), s.events = .rst :: es →
    step s = .next { s with events := es, pcmd := State.reset.pcmd, regErr := false }) ∧
  State.reset.pcmd =
    { cmd := 0x00000000, done := false, ovr := false, err := 0, op := 0, config := 0x00000000, result := 0x00000000,
      byteCount := 0x00000000, lconfig := 0x00000000, mode := .idle, need := .two, acc := 0, nb := 0, cur := 0, pend := false,
      low := 0, obuf := { v := false, k := 0, d := 0, w := false }, res := { w := .bits8, n := 0, seqs := [] } } ∧
  State.reset.regErr = false ∧ State.reset.pcmd.status = 0 ∧ State.reset.pcmd.cursor = 0 ∧
  State.reset.pcmd.busRead 0x1C = { rdata := 0x444D4350, err := false } ∧
  State.reset.pcmd.sReady = false ∧ State.reset.pcmd.mValid = false ∧ State.reset.pcmd.doneOut = false

/-- R62, R63: a step other than the host's start of a new stream takes at most the first token from the queue, and takes one only in a state with
`s_ready = 1`: a READ running, or a DEINTERLEAVE running with OBUF empty. -/
def Obligations.TokensGoOnlyToRunningCommands : Prop :=
  ∀ s t : State, step s = .next t → s.newStreamNext = false →
    (∃ added, t.stream = s.stream ++ added) ∨
      ((s.pcmd.mode = .rd ∨ s.pcmd.mode = .deint ∧ s.pcmd.obuf.v = false) ∧ ∃ tok, s.stream = tok :: t.stream)

/-! ### The host's statements -/

/-- R91: the statements that compute, branch, store or stop, each past its own position. That a label is an absolute position and that a shift by 32 or more
gives 0 are the model's choice (log 21). -/
def Obligations.HostStatementEffects : Prop :=
  ∀ (s : State) (n m : HVar) (v : Word) (l : Nat) (f : FormatField) (e : ErrName) (es : List Event), s.events = .host :: es →
    let s0 := { s with events := es }
    let h0 := { s.host with pos := s.host.pos + 1 }
    let x := s.host.vars.get n
    (s.host.fetch = some (.and n v) → step s = .next { s0 with host := { h0 with vars := s.host.vars.set n (x &&& v) } }) ∧
    (s.host.fetch = some (.shl n v) → step s = .next { s0 with host := { h0 with vars := s.host.vars.set n (x <<< v) } }) ∧
    (s.host.fetch = some (.or n m) →
      step s = .next { s0 with host := { h0 with vars := s.host.vars.set n (x ||| s.host.vars.get m) } }) ∧
    (s.host.fetch = some (.beq n v l) → step s = .next { s0 with host := if x = v then { h0 with pos := l } else h0 }) ∧
    (s.host.fetch = some (.bne n v l) → step s = .next { s0 with host := if x = v then h0 else { h0 with pos := l } }) ∧
    (s.host.fetch = some (.jmp l) → step s = .next { s0 with host := { h0 with pos := l } }) ∧
    (s.host.fetch = some (.save f n) → step s = .next { s0 with host := { h0 with record := s.host.record.save f x } }) ∧
    (s.host.fetch = some (.fail e) → step s = .next { s0 with host := { h0 with status := .failed e } }) ∧
    (s.host.fetch = some .halt → step s = .next { s0 with host := { h0 with status := .halted } })

/-- R91: the statements that act on PCMD's ports: RD, the three PUSHes, and TAKE with a beat on offer and without. A TAKE with a beat on offer changes the
variables it names, the beat's OBUF_V and the record of the beats taken (log 19) and nothing else; R91 does not order the two assignments of `TAKE h7`, so
that clause leaves open which of the two values h7 holds. -/
def Obligations.HostPortStatements : Prop :=
  ∀ (s : State) (n : HVar) (off : Byte) (b : Byte) (es : List Event), s.events = .host :: es →
    let s0 := { s with events := es }
    let h0 := { s.host with pos := s.host.pos + 1 }
    let s1 : State := { s0 with
      pcmd := { s.pcmd with obuf := { s.pcmd.obuf with v := false } },
      taken := s.taken ++ [{ chan := s.pcmd.obuf.k, data := s.pcmd.obuf.d, wide := s.pcmd.obuf.w }] }
    (s.host.fetch = some (.rd n off) → step s = .next { s0 with
      regErr := (s.pcmd.busRead off).err, host := { h0 with vars := s.host.vars.set n (s.pcmd.busRead off).rdata } }) ∧
    (s.host.fetch = some (.push b) → step s = .next { s0 with host := h0, stream := s.stream ++ [b.zeroExtend 10] }) ∧
    (s.host.fetch = some .pushEnd → step s = .next { s0 with host := h0, stream := s.stream ++ [0x100] }) ∧
    (s.host.fetch = some .pushErr → step s = .next { s0 with host := h0, stream := s.stream ++ [0x200] }) ∧
    (s.host.fetch = some (.take n) → s.pcmd.obuf.v = false → step s = .next { s0 with
      host := { h0 with vars := s.host.vars.set n 0xFFFFFFFF } }) ∧
    (s.host.fetch = some (.take n) → s.pcmd.obuf.v = true →
      ∃ v : Word, v.toNat = s.pcmd.obuf.d.toNat + 2 ^ 16 * s.pcmd.obuf.w.toNat ∧
        (n ≠ .h7 → step s = .next { s1 with
          host := { h0 with vars := (s.host.vars.set n v).set .h7 (s.pcmd.obuf.k.zeroExtend 32) } }) ∧
        (n = .h7 → ∃ u : Word, (u = v ∨ u = s.pcmd.obuf.k.zeroExtend 32) ∧
          step s = .next { s1 with host := { h0 with vars := s.host.vars.set .h7 u } }))

/-- R91, OUT: the value of hN joins the list OUT[hK] and no other list changes. That the index is the whole 32-bit value of hK is the model's choice (log 16). -/
def Obligations.HostOutAppends : Prop :=
  ∀ (s : State) (k n : HVar) (es : List Event), s.events = .host :: es → s.host.fetch = some (.out k n) →
    OutLists.wf s.host.out = true →
    ∃ t, step s = .next t ∧ t.pcmd = s.pcmd ∧ t.stream = s.stream ∧ t.host.vars = s.host.vars ∧
      OutLists.at (s.host.vars.get k).toNat t.host.out =
        OutLists.at (s.host.vars.get k).toNat s.host.out ++ [s.host.vars.get n] ∧
      ∀ j, j ≠ (s.host.vars.get k).toNat → OutLists.at j t.host.out = OutLists.at j s.host.out

/-- R91 and R180: FAIL ERR ends the host with the error of the current STATUS.ERR; on a code PCMD never produces (2, 7 to 15) it is refused
(93_implementation_defined.md; log 9). -/
def Obligations.FailErrNamesStatusError : Prop :=
  ∀ (s : State) (es : List Event), s.events = .host :: es → s.host.fetch = some .failErr →
    (∀ e : ErrName, e ≠ .invalidFormat → s.pcmd.err = e.code → step s = .next { s with
      events := es, host := { s.host with pos := s.host.pos + 1, status := .failed e } }) ∧
    (s.pcmd.err = 2 ∨ 7 ≤ s.pcmd.err.toNat → step s = .refused .errorCodeNeverProduced)

/-- R92: the expansion of every pseudo at a position, its local labels being positions counted from there (log 21); the tag word, and its value for the four
tags. -/
def Obligations.PseudosExpand : Prop :=
  (∀ (c b : Half) (base : Nat), (Pseudo.deint c b).expand base = [.wrImm 0x08 (b ++ c), .wrImm 0x00 0x00000001]) ∧
  (∀ base : Nat, Pseudo.rdu16.expand base = [.wrImm 0x00 0x00000002] ∧ Pseudo.rdu32.expand base = [.wrImm 0x00 0x00000003] ∧
    Pseudo.wait.expand base = [.rd .h0 0x04, .and .h0 0x1, .bne .h0 0 base]) ∧
  (∀ label base : Nat, (Pseudo.check label).expand base = [.rd .h0 0x04, .and .h0 0xF0, .bne .h0 0 label]) ∧
  (∀ (t0 t1 t2 t3 : Byte) (bad base : Nat), (Pseudo.expect4 t0 t1 t2 t3 bad).expand base =
    Pseudo.rdu32.expand base ++ Pseudo.wait.expand (base + 1) ++ (Pseudo.check bad).expand (base + 4) ++
      [.rd .h1 0x0C, .bne .h1 (le32 t0 t1 t2 t3) bad]) ∧
  (∀ ok bad base : Nat, (Pseudo.collect ok bad).expand base =
    [.take .h1, .beq .h1 0xFFFFFFFF (base + 4), .out .h7 .h1, .jmp base, .rd .h0 0x04, .and .h0 0x2, .beq .h0 0 base] ++
      (Pseudo.check bad).expand (base + 7) ++ [.jmp ok]) ∧
  (∀ t0 t1 t2 t3 : Byte, (le32 t0 t1 t2 t3).toNat = leValue [t0, t1, t2, t3]) ∧
  le32 0x52 0x49 0x46 0x46 = 0x46464952 ∧ le32 0x57 0x41 0x56 0x45 = 0x45564157 ∧ le32 0x66 0x6D 0x74 0x20 = 0x20746D66 ∧
  le32 0x64 0x61 0x74 0x61 = 0x61746164

/-! ### The invariant and what follows from it -/

/-- The reset state meets the invariant (R211). -/
def Obligations.ResetMeetsInvariant : Prop := State.reset.Inv

/-- Every step keeps the invariant: R26, R30, R31, R35, R38, R39, R41, R71 and R146 as one. -/
def Obligations.StepKeepsInvariant : Prop :=
  ∀ s t : State, s.Inv → step s = .next t → t.Inv

/-- From a state that meets the invariant no step stops: PCMD has no fault to take and no host statement is refused (R82, R188; logs 6 and 9). -/
def Obligations.InvariantStatesNeverStop : Prop :=
  ∀ s : State, s.Inv → ∃ t, step s = .next t

/-- Where the model can stop at all: a fault only where a DEINTERLEAVE with LCONFIG.CH = 0 runs, a refusal only at FAIL ERR on a code that is never produced
(log 6, log 9). -/
def Obligations.OnlyTheseStatesStop : Prop :=
  ∀ s : State,
    (∀ r, step s = .fault r → r = .cursorModuloZero ∧ s.pcmd.mode = .deint ∧ s.pcmd.channels = 0) ∧
    (∀ r, step s = .refused r → r = .errorCodeNeverProduced ∧ s.nextStmt? = some .failErr ∧
      (s.pcmd.err = 2 ∨ 7 ≤ s.pcmd.err.toNat))

/-- R41: when STATUS.RVALID reads 1 after a step, every channel's sequence has the same length then, for every step from a state that meets the invariant. -/
def Obligations.ValidResultIsBalanced : Prop :=
  ∀ s t : State, s.Inv → step s = .next t → (t.pcmd.busRead 0x04).rdata.getLsbD 3 = true →
    ∀ j k : Nat, j < t.pcmd.res.n.toNat → k < t.pcmd.res.n.toNat → (t.pcmd.res.chan j).length = (t.pcmd.res.chan k).length

/-- R71: when STATUS.DONE reads 1 no beat is left in OBUF, PCMD takes no token, and BUSY reads 0, in every state that meets the invariant. R71 and R148 are inferences the spec marks as its own. -/
def Obligations.DoneMeansDrained : Prop :=
  ∀ s : State, s.Inv → (s.pcmd.busRead 0x04).rdata.getLsbD 1 = true →
    s.pcmd.mValid = false ∧ s.pcmd.sReady = false ∧ (s.pcmd.busRead 0x04).rdata.getLsbD 0 = false

/-! ### Rules of the whole machine -/

/-- R29: only a reset, or the step in which a READ finishes with ERR = 0, changes RESULT; after READ_U16 it is a 16-bit value. -/
def Obligations.OnlySuccessfulReadsWriteResult : Prop :=
  ∀ s t : State, s.Inv → step s = .next t → t.pcmd.result ≠ s.pcmd.result →
    s.resetNext = true ∧ t.pcmd.result = 0 ∨
    ((s.pcmd.running = some .readU16 ∧ t.pcmd.result.toNat < 2 ^ 16 ∨ s.pcmd.running = some .readU32) ∧
      t.pcmd.mode = .idle ∧ t.pcmd.done = true ∧ t.pcmd.err = 0)

/-- R32: only a reset, or the acceptance of a DEINTERLEAVE, changes LCONFIG, and the acceptance sets it to CONFIG. -/
def Obligations.OnlyDeinterleaveAcceptanceWritesLconfig : Prop :=
  ∀ s t : State, step s = .next t →
    (t.pcmd.lconfig ≠ s.pcmd.lconfig → s.resetNext = true ∨ s.pcmd.mode = .idle ∧ s.cmdWrite? = some 0x00000001) ∧
    (s.pcmd.mode = .idle → s.cmdWrite? = some 0x00000001 → t.pcmd.lconfig = s.pcmd.config)

/-- R25: CMD holds the last accepted word, all 32 bits; a word written while BUSY = 1 does not change it; only a reset otherwise does. -/
def Obligations.CmdHoldsLastAcceptedWord : Prop :=
  ∀ s t : State, step s = .next t →
    (∀ w, s.cmdWrite? = some w → s.pcmd.mode = .idle → t.pcmd.cmd = w ∧ t.pcmd.op = w.extractLsb' 0 3) ∧
    (t.pcmd.cmd ≠ s.pcmd.cmd → s.resetNext = true ∨ s.pcmd.mode = .idle ∧ ∃ w, s.cmdWrite? = some w)

/-- R190: with no command running, DONE and ERR stay as `Finish` left them until the next command is accepted, or a reset. -/
def Obligations.OutcomeStaysUntilNextCommand : Prop :=
  ∀ s t : State, step s = .next t → s.pcmd.mode = .idle → s.resetNext = false → s.cmdWrite? = none →
    t.pcmd.done = s.pcmd.done ∧ t.pcmd.err = s.pcmd.err ∧ t.pcmd.mode = .idle

/-- R180, R181: a step that changes STATUS.ERR writes 0, 1, 3, 4, 5 or 6: never InvalidFormat (2) and never a reserved code. -/
def Obligations.OnlyKnownErrorCodesWritten : Prop :=
  ∀ s t : State, step s = .next t → t.pcmd.err ≠ s.pcmd.err → t.pcmd.err.toNat ∈ [0, 1, 3, 4, 5, 6]

/-- R216: a host that keeps its duties never causes an overrun. -/
def Obligations.DutifulHostNeverOverruns : Prop :=
  ∀ s t : State, s.DutyKept → step s = .next t → s.pcmd.ovr = false → t.pcmd.ovr = false

/-- R191: what a CMD write does is settled by BUSY first, then by the word, then by the bit depth, then by the channel count. -/
def Obligations.CommandChecksInOrder : Prop :=
  ∀ s t : State, ∀ w : Word, step s = .next t → s.cmdWrite? = some w →
    (s.pcmd.mode ≠ .idle → t.pcmd = { s.pcmd with ovr := true }) ∧
    (s.pcmd.mode = .idle → (w ≠ 1 ∧ w ≠ 2 ∧ w ≠ 3) → t.pcmd.done = true ∧ t.pcmd.err = 6) ∧
    (s.pcmd.mode = .idle → w = 1 → bpsField s.pcmd.config ≠ 8 → bpsField s.pcmd.config ≠ 16 →
      t.pcmd.done = true ∧ t.pcmd.err = 3) ∧
    (s.pcmd.mode = .idle → w = 1 → (bpsField s.pcmd.config = 8 ∨ bpsField s.pcmd.config = 16) → chField s.pcmd.config = 0 →
      t.pcmd.done = true ∧ t.pcmd.err = 5) ∧
    (s.pcmd.mode = .idle → w = 2 ∨ w = 3 → t.pcmd.done = false ∧ t.pcmd.mode = .rd)

/-! ### Whole commands -/

/-- R117, R118: a READ of `n` bytes, accepted at IDLE with nothing else to do, on the tokens presented. With `n` bytes first it consumes exactly those and
RESULT is their little-endian sum, below 2^(8n). With a token of another kind after `j < n` bytes it consumes that too and fails with ERR = 1, RESULT as
before and BYTE_COUNT = `j`. With fewer tokens and the host idle it holds for ever. The run takes the order of unlisted steps that is the model's choice (log 2);
in the third clause, that a host with no statement left does nothing (log 3) and that a hold is a step without a change (log 5) are its choices too. R117
and R118 are inferences the spec marks as its own ("[derived: from rule R112 ..."). -/
def Obligations.ReadSummary : Prop :=
  ∀ (i : Instr) (n : Nat), (i = .readU16 ∧ n = 2 ∨ i = .readU32 ∧ n = 4) →
    ∀ (s : State) (bs : List Byte) (rest : List RawToken), s.pcmd.mode = .idle → s.events = [.regWrite 0x00 (encode i)] →
      s.stream = bs.map rawByte ++ rest →
      (bs.length = n → ∃ t, runSteps (1 + n) s = some t ∧ t.stream = rest ∧ t.pcmd.mode = .idle ∧ t.pcmd.done = true ∧
        t.pcmd.err = 0 ∧ t.pcmd.result.toNat = leValue bs ∧ leValue bs < 2 ^ (8 * n) ∧ t.pcmd.byteCount.toNat = n) ∧
      (∀ tok ts, bs.length < n → rest = tok :: ts → tok.extractLsb' 8 2 ≠ 0 →
        ∃ t, runSteps (1 + bs.length + 1) s = some t ∧ t.stream = ts ∧ t.pcmd.mode = .idle ∧ t.pcmd.done = true ∧
          t.pcmd.err = 1 ∧ t.pcmd.result = s.pcmd.result ∧ t.pcmd.byteCount.toNat = bs.length) ∧
      (bs.length < n → rest = [] → s.host.fetch = none →
        ∃ t, t.pcmd.mode = .rd ∧ t.pcmd.done = false ∧ t.pcmd.result = s.pcmd.result ∧
          ∀ k, runSteps (1 + bs.length + k) s = some t)

/-- R140, R141: the acceptance of a DEINTERLEAVE with good operands starts a decode that has consumed nothing. -/
def Obligations.DeinterleaveBeginsDecode : Prop :=
  ∀ (s : State) (w : ResWidth) (c : Half), s.Inv → s.pcmd.mode = .idle → c ≠ 0 →
    s.pcmd.config = BitVec.ofNat 16 w.bits ++ c →
    ∃ t, exec .deinterleave s = .next t ∧ t.Decoding w c s.taken [] ∧ t.stream = s.stream

/-- R67, R143 to R150: whatever the order of the steps of PCMD, the host and other masters, a running DEINTERLEAVE follows the source's decode. A step that
consumes a BYTE token extends the payload by it; END finishes with success exactly on a multiple of the frame size, else IncompleteData; ERR and kind 3
finish with TruncatedInput; a reset abandons it; and no other step changes what it has decoded. -/
def Obligations.DecodeFollowsTheSource : Prop :=
  ∀ (w : ResWidth) (c : Half) (pre : List Beat) (xs : List Byte) (s t : State), s.Decoding w c pre xs → step s = .next t →
    match s.consumed? with
    | none => s.resetNext = true ∧ t.pcmd = Pcmd.reset ∨ s.resetNext = false ∧ t.Decoding w c pre xs
    | some tok =>
      s.stream = tok :: t.stream ∧
        match Token.ofRaw tok with
        | .byte x => t.Decoding w c pre (xs ++ [x])
        | .endOfInput => t.Decoded w c pre xs (endError w c.toNat xs)
        | .err => t.Decoded w c pre xs .truncatedInput

/-- R154, an inference the spec marks as its own ("[derived: from rule R143, rule R146 and rule R150]"): 8-bit functional summary, for a host that takes every
beat at once. The beats are read from the model's own record of the beats taken (log 19). -/
def Obligations.Deinterleave8Summary : Prop :=
  ∀ (s : State) (c : Half) (xs : List Byte) (tokEnd : RawToken) (rest : List RawToken),
    s.pcmd.mode = .idle → s.pcmd.obuf.v = false → s.pcmd.config = 8#16 ++ c → c ≠ 0 →
    tokEnd.extractLsb' 8 2 = 1 → s.stream = xs.map rawByte ++ tokEnd :: rest →
    s.events = .regWrite 0x00 0x00000001 :: promptHost xs.length →
    ∃ t, runSteps (1 + (2 * xs.length + 1)) s = some t ∧ t.stream = rest ∧ t.pcmd.mode = .idle ∧ t.pcmd.done = true ∧
      t.pcmd.res.w = .bits8 ∧ t.pcmd.res.n = c ∧
      (∀ k < c.toNat, t.pcmd.res.chan k =
        ((xs.zipIdx.filter (fun xi => xi.2 % c.toNat = k)).map (fun xi => xi.1.toInt))) ∧
      t.taken = s.taken ++ xs.zipIdx.map (fun xi =>
        { chan := BitVec.ofNat 16 (xi.2 % c.toNat), data := xi.1.signExtend 16, wide := false }) ∧
      t.pcmd.byteCount.toNat = xs.length % 2 ^ 32 ∧ t.pcmd.cur.toNat = xs.length % c.toNat ∧
      t.pcmd.err = (if xs.length % c.toNat = 0 then 0 else 4)

/-- R156, an inference the spec marks as its own ("[derived: from rule R145, rule R146 and rule R150]"): 16-bit functional summary, for a host that takes every
beat at once. The beats are read from the model's own record of the beats taken (log 19). -/
def Obligations.Deinterleave16Summary : Prop :=
  ∀ (s : State) (c : Half) (xs : List Byte) (tokEnd : RawToken) (rest : List RawToken),
    s.pcmd.mode = .idle → s.pcmd.obuf.v = false → s.pcmd.config = 16#16 ++ c → c ≠ 0 →
    tokEnd.extractLsb' 8 2 = 1 → s.stream = xs.map rawByte ++ tokEnd :: rest →
    s.events = .regWrite 0x00 0x00000001 :: promptHost xs.length →
    ∃ t, runSteps (1 + (2 * xs.length + 1)) s = some t ∧ t.stream = rest ∧ t.pcmd.mode = .idle ∧ t.pcmd.done = true ∧
      t.pcmd.res.w = .bits16 ∧ t.pcmd.res.n = c ∧
      (payloadWords xs).length = xs.length / 2 ∧
      (∀ (j : Nat) (x y : Byte), xs[2 * j]? = some x → xs[2 * j + 1]? = some y →
        (payloadWords xs)[j]?.map BitVec.toNat = some (x.toNat + 256 * y.toNat)) ∧
      (∀ k < c.toNat, t.pcmd.res.chan k =
        (((payloadWords xs).zipIdx.filter (fun wj => wj.2 % c.toNat = k)).map (fun wj => (wj.1.toNat : Int)))) ∧
      t.taken = s.taken ++ (payloadWords xs).zipIdx.map (fun wj =>
        { chan := BitVec.ofNat 16 (wj.2 % c.toNat), data := wj.1, wide := true }) ∧
      t.pcmd.pend = decide (xs.length % 2 = 1) ∧ t.pcmd.low = (if xs.length % 2 = 1 then xs.getLast?.getD 0 else 0) ∧
      t.pcmd.cur.toNat = xs.length / 2 % c.toNat ∧
      t.pcmd.err = (if xs.length % (2 * c.toNat) = 0 then 0 else 4)

/-- R153, R155: a decode that END finishes succeeds exactly when the payload is a multiple of the frame size `c × (b / 8)`, fails with IncompleteData
otherwise, and on success every channel has `N / (c × (b / 8))` samples. Both rules are inferences the spec marks as its own ("[derived: from rule R146 and rule
R150]", "[derived: from rule R154 and rule R156]"). -/
def Obligations.FrameMultipleLaw : Prop :=
  ∀ (w : ResWidth) (c : Half) (pre : List Beat) (xs : List Byte) (s t : State) (tok : RawToken), s.Decoding w c pre xs →
    step s = .next t → s.consumed? = some tok → tok.extractLsb' 8 2 = 1 →
    (xs.length % (c.toNat * (w.bits / 8)) = 0 → t.pcmd.done = true ∧ t.pcmd.err = 0 ∧ t.pcmd.rvalid = true ∧
      ∀ k < c.toNat, (t.pcmd.res.chan k).length = xs.length / (c.toNat * (w.bits / 8))) ∧
    (xs.length % (c.toNat * (w.bits / 8)) ≠ 0 → t.pcmd.done = true ∧ t.pcmd.err = 4 ∧ t.pcmd.rvalid = false)
end

