-- ==== Sys2Proof/Laws/State.lean ====
section
/-! SUPPORT. One lemma a field for each named update of the state, so that no later proof unfolds a record update. -/

namespace Sys2Proof.Machine

/-! ### Accepting, finishing, dropping -/

@[simp] theorem Pcmd.acceptWord_cmd (w : Word) (p : Pcmd) : (p.acceptWord w).cmd = w := rfl
@[simp] theorem Pcmd.acceptWord_done (w : Word) (p : Pcmd) : (p.acceptWord w).done = false := rfl
@[simp] theorem Pcmd.acceptWord_ovr (w : Word) (p : Pcmd) : (p.acceptWord w).ovr = false := rfl
@[simp] theorem Pcmd.acceptWord_err (w : Word) (p : Pcmd) : (p.acceptWord w).err = 0 := rfl
@[simp] theorem Pcmd.acceptWord_op (w : Word) (p : Pcmd) : (p.acceptWord w).op = opField w := rfl
@[simp] theorem Pcmd.acceptWord_config (w : Word) (p : Pcmd) : (p.acceptWord w).config = p.config := rfl
@[simp] theorem Pcmd.acceptWord_result (w : Word) (p : Pcmd) : (p.acceptWord w).result = p.result := rfl
@[simp] theorem Pcmd.acceptWord_byteCount (w : Word) (p : Pcmd) : (p.acceptWord w).byteCount = 0 := rfl
@[simp] theorem Pcmd.acceptWord_lconfig (w : Word) (p : Pcmd) : (p.acceptWord w).lconfig = p.lconfig := rfl
@[simp] theorem Pcmd.acceptWord_mode (w : Word) (p : Pcmd) : (p.acceptWord w).mode = p.mode := rfl
@[simp] theorem Pcmd.acceptWord_need (w : Word) (p : Pcmd) : (p.acceptWord w).need = p.need := rfl
@[simp] theorem Pcmd.acceptWord_acc (w : Word) (p : Pcmd) : (p.acceptWord w).acc = p.acc := rfl
@[simp] theorem Pcmd.acceptWord_nb (w : Word) (p : Pcmd) : (p.acceptWord w).nb = p.nb := rfl
@[simp] theorem Pcmd.acceptWord_cur (w : Word) (p : Pcmd) : (p.acceptWord w).cur = 0 := rfl
@[simp] theorem Pcmd.acceptWord_pend (w : Word) (p : Pcmd) : (p.acceptWord w).pend = false := rfl
@[simp] theorem Pcmd.acceptWord_low (w : Word) (p : Pcmd) : (p.acceptWord w).low = 0 := rfl
@[simp] theorem Pcmd.acceptWord_obuf (w : Word) (p : Pcmd) : (p.acceptWord w).obuf = p.obuf := rfl
@[simp] theorem Pcmd.acceptWord_res (w : Word) (p : Pcmd) : (p.acceptWord w).res = p.res := rfl

@[simp] theorem Pcmd.finish_cmd (e : ErrName) (p : Pcmd) : (p.finish e).cmd = p.cmd := rfl
@[simp] theorem Pcmd.finish_done (e : ErrName) (p : Pcmd) : (p.finish e).done = true := rfl
@[simp] theorem Pcmd.finish_ovr (e : ErrName) (p : Pcmd) : (p.finish e).ovr = p.ovr := rfl
@[simp] theorem Pcmd.finish_err (e : ErrName) (p : Pcmd) : (p.finish e).err = e.code := rfl
@[simp] theorem Pcmd.finish_op (e : ErrName) (p : Pcmd) : (p.finish e).op = p.op := rfl
@[simp] theorem Pcmd.finish_config (e : ErrName) (p : Pcmd) : (p.finish e).config = p.config := rfl
@[simp] theorem Pcmd.finish_result (e : ErrName) (p : Pcmd) : (p.finish e).result = p.result := rfl
@[simp] theorem Pcmd.finish_byteCount (e : ErrName) (p : Pcmd) : (p.finish e).byteCount = p.byteCount := rfl
@[simp] theorem Pcmd.finish_lconfig (e : ErrName) (p : Pcmd) : (p.finish e).lconfig = p.lconfig := rfl
@[simp] theorem Pcmd.finish_mode (e : ErrName) (p : Pcmd) : (p.finish e).mode = .idle := rfl
@[simp] theorem Pcmd.finish_need (e : ErrName) (p : Pcmd) : (p.finish e).need = p.need := rfl
@[simp] theorem Pcmd.finish_acc (e : ErrName) (p : Pcmd) : (p.finish e).acc = p.acc := rfl
@[simp] theorem Pcmd.finish_nb (e : ErrName) (p : Pcmd) : (p.finish e).nb = p.nb := rfl
@[simp] theorem Pcmd.finish_cur (e : ErrName) (p : Pcmd) : (p.finish e).cur = p.cur := rfl
@[simp] theorem Pcmd.finish_pend (e : ErrName) (p : Pcmd) : (p.finish e).pend = p.pend := rfl
@[simp] theorem Pcmd.finish_low (e : ErrName) (p : Pcmd) : (p.finish e).low = p.low := rfl
@[simp] theorem Pcmd.finish_obuf (e : ErrName) (p : Pcmd) : (p.finish e).obuf = p.obuf := rfl
@[simp] theorem Pcmd.finish_res (e : ErrName) (p : Pcmd) : (p.finish e).res = p.res := rfl

@[simp] theorem Pcmd.overrun_cmd (p : Pcmd) : (p.overrun).cmd = p.cmd := rfl
@[simp] theorem Pcmd.overrun_done (p : Pcmd) : (p.overrun).done = p.done := rfl
@[simp] theorem Pcmd.overrun_ovr (p : Pcmd) : (p.overrun).ovr = true := rfl
@[simp] theorem Pcmd.overrun_err (p : Pcmd) : (p.overrun).err = p.err := rfl
@[simp] theorem Pcmd.overrun_op (p : Pcmd) : (p.overrun).op = p.op := rfl
@[simp] theorem Pcmd.overrun_config (p : Pcmd) : (p.overrun).config = p.config := rfl
@[simp] theorem Pcmd.overrun_result (p : Pcmd) : (p.overrun).result = p.result := rfl
@[simp] theorem Pcmd.overrun_byteCount (p : Pcmd) : (p.overrun).byteCount = p.byteCount := rfl
@[simp] theorem Pcmd.overrun_lconfig (p : Pcmd) : (p.overrun).lconfig = p.lconfig := rfl
@[simp] theorem Pcmd.overrun_mode (p : Pcmd) : (p.overrun).mode = p.mode := rfl
@[simp] theorem Pcmd.overrun_need (p : Pcmd) : (p.overrun).need = p.need := rfl
@[simp] theorem Pcmd.overrun_acc (p : Pcmd) : (p.overrun).acc = p.acc := rfl
@[simp] theorem Pcmd.overrun_nb (p : Pcmd) : (p.overrun).nb = p.nb := rfl
@[simp] theorem Pcmd.overrun_cur (p : Pcmd) : (p.overrun).cur = p.cur := rfl
@[simp] theorem Pcmd.overrun_pend (p : Pcmd) : (p.overrun).pend = p.pend := rfl
@[simp] theorem Pcmd.overrun_low (p : Pcmd) : (p.overrun).low = p.low := rfl
@[simp] theorem Pcmd.overrun_obuf (p : Pcmd) : (p.overrun).obuf = p.obuf := rfl
@[simp] theorem Pcmd.overrun_res (p : Pcmd) : (p.overrun).res = p.res := rfl

@[simp] theorem Pcmd.startRead_cmd (n : Need) (p : Pcmd) : (p.startRead n).cmd = p.cmd := rfl
@[simp] theorem Pcmd.startRead_done (n : Need) (p : Pcmd) : (p.startRead n).done = p.done := rfl
@[simp] theorem Pcmd.startRead_ovr (n : Need) (p : Pcmd) : (p.startRead n).ovr = p.ovr := rfl
@[simp] theorem Pcmd.startRead_err (n : Need) (p : Pcmd) : (p.startRead n).err = p.err := rfl
@[simp] theorem Pcmd.startRead_op (n : Need) (p : Pcmd) : (p.startRead n).op = p.op := rfl
@[simp] theorem Pcmd.startRead_config (n : Need) (p : Pcmd) : (p.startRead n).config = p.config := rfl
@[simp] theorem Pcmd.startRead_result (n : Need) (p : Pcmd) : (p.startRead n).result = p.result := rfl
@[simp] theorem Pcmd.startRead_byteCount (n : Need) (p : Pcmd) : (p.startRead n).byteCount = p.byteCount := rfl
@[simp] theorem Pcmd.startRead_lconfig (n : Need) (p : Pcmd) : (p.startRead n).lconfig = p.lconfig := rfl
@[simp] theorem Pcmd.startRead_mode (n : Need) (p : Pcmd) : (p.startRead n).mode = .rd := rfl
@[simp] theorem Pcmd.startRead_need (n : Need) (p : Pcmd) : (p.startRead n).need = n := rfl
@[simp] theorem Pcmd.startRead_acc (n : Need) (p : Pcmd) : (p.startRead n).acc = 0 := rfl
@[simp] theorem Pcmd.startRead_nb (n : Need) (p : Pcmd) : (p.startRead n).nb = 0 := rfl
@[simp] theorem Pcmd.startRead_cur (n : Need) (p : Pcmd) : (p.startRead n).cur = p.cur := rfl
@[simp] theorem Pcmd.startRead_pend (n : Need) (p : Pcmd) : (p.startRead n).pend = p.pend := rfl
@[simp] theorem Pcmd.startRead_low (n : Need) (p : Pcmd) : (p.startRead n).low = p.low := rfl
@[simp] theorem Pcmd.startRead_obuf (n : Need) (p : Pcmd) : (p.startRead n).obuf = p.obuf := rfl
@[simp] theorem Pcmd.startRead_res (n : Need) (p : Pcmd) : (p.startRead n).res = p.res := rfl

@[simp] theorem Pcmd.emit_cmd (k : Half) (smp : Sample) (p : Pcmd) : (p.emit k smp).cmd = p.cmd := rfl
@[simp] theorem Pcmd.emit_done (k : Half) (smp : Sample) (p : Pcmd) : (p.emit k smp).done = p.done := rfl
@[simp] theorem Pcmd.emit_ovr (k : Half) (smp : Sample) (p : Pcmd) : (p.emit k smp).ovr = p.ovr := rfl
@[simp] theorem Pcmd.emit_err (k : Half) (smp : Sample) (p : Pcmd) : (p.emit k smp).err = p.err := rfl
@[simp] theorem Pcmd.emit_op (k : Half) (smp : Sample) (p : Pcmd) : (p.emit k smp).op = p.op := rfl
@[simp] theorem Pcmd.emit_config (k : Half) (smp : Sample) (p : Pcmd) : (p.emit k smp).config = p.config := rfl
@[simp] theorem Pcmd.emit_result (k : Half) (smp : Sample) (p : Pcmd) : (p.emit k smp).result = p.result := rfl
@[simp] theorem Pcmd.emit_byteCount (k : Half) (smp : Sample) (p : Pcmd) : (p.emit k smp).byteCount = p.byteCount := rfl
@[simp] theorem Pcmd.emit_lconfig (k : Half) (smp : Sample) (p : Pcmd) : (p.emit k smp).lconfig = p.lconfig := rfl
@[simp] theorem Pcmd.emit_mode (k : Half) (smp : Sample) (p : Pcmd) : (p.emit k smp).mode = p.mode := rfl
@[simp] theorem Pcmd.emit_need (k : Half) (smp : Sample) (p : Pcmd) : (p.emit k smp).need = p.need := rfl
@[simp] theorem Pcmd.emit_acc (k : Half) (smp : Sample) (p : Pcmd) : (p.emit k smp).acc = p.acc := rfl
@[simp] theorem Pcmd.emit_nb (k : Half) (smp : Sample) (p : Pcmd) : (p.emit k smp).nb = p.nb := rfl
@[simp] theorem Pcmd.emit_cur (k : Half) (smp : Sample) (p : Pcmd) : (p.emit k smp).cur = p.cur := rfl
@[simp] theorem Pcmd.emit_pend (k : Half) (smp : Sample) (p : Pcmd) : (p.emit k smp).pend = p.pend := rfl
@[simp] theorem Pcmd.emit_low (k : Half) (smp : Sample) (p : Pcmd) : (p.emit k smp).low = p.low := rfl
@[simp] theorem Pcmd.emit_obuf (k : Half) (smp : Sample) (p : Pcmd) : (p.emit k smp).obuf = { v := true, k := k, d := smp.data, w := smp.wide } := rfl
@[simp] theorem Pcmd.emit_res (k : Half) (smp : Sample) (p : Pcmd) : (p.emit k smp).res = p.res.append k smp.value := rfl

/-! ### Counting a token -/

@[simp] theorem Pcmd.countToken_cmd (tok : Token) (p : Pcmd) : (p.countToken tok).cmd = p.cmd := by
  cases tok <;> rfl
@[simp] theorem Pcmd.countToken_done (tok : Token) (p : Pcmd) : (p.countToken tok).done = p.done := by
  cases tok <;> rfl
@[simp] theorem Pcmd.countToken_ovr (tok : Token) (p : Pcmd) : (p.countToken tok).ovr = p.ovr := by
  cases tok <;> rfl
@[simp] theorem Pcmd.countToken_err (tok : Token) (p : Pcmd) : (p.countToken tok).err = p.err := by
  cases tok <;> rfl
@[simp] theorem Pcmd.countToken_op (tok : Token) (p : Pcmd) : (p.countToken tok).op = p.op := by
  cases tok <;> rfl
@[simp] theorem Pcmd.countToken_config (tok : Token) (p : Pcmd) : (p.countToken tok).config = p.config := by
  cases tok <;> rfl
@[simp] theorem Pcmd.countToken_result (tok : Token) (p : Pcmd) : (p.countToken tok).result = p.result := by
  cases tok <;> rfl
@[simp] theorem Pcmd.countToken_lconfig (tok : Token) (p : Pcmd) : (p.countToken tok).lconfig = p.lconfig := by
  cases tok <;> rfl
@[simp] theorem Pcmd.countToken_mode (tok : Token) (p : Pcmd) : (p.countToken tok).mode = p.mode := by
  cases tok <;> rfl
@[simp] theorem Pcmd.countToken_need (tok : Token) (p : Pcmd) : (p.countToken tok).need = p.need := by
  cases tok <;> rfl
@[simp] theorem Pcmd.countToken_acc (tok : Token) (p : Pcmd) : (p.countToken tok).acc = p.acc := by
  cases tok <;> rfl
@[simp] theorem Pcmd.countToken_nb (tok : Token) (p : Pcmd) : (p.countToken tok).nb = p.nb := by
  cases tok <;> rfl
@[simp] theorem Pcmd.countToken_cur (tok : Token) (p : Pcmd) : (p.countToken tok).cur = p.cur := by
  cases tok <;> rfl
@[simp] theorem Pcmd.countToken_pend (tok : Token) (p : Pcmd) : (p.countToken tok).pend = p.pend := by
  cases tok <;> rfl
@[simp] theorem Pcmd.countToken_low (tok : Token) (p : Pcmd) : (p.countToken tok).low = p.low := by
  cases tok <;> rfl
@[simp] theorem Pcmd.countToken_obuf (tok : Token) (p : Pcmd) : (p.countToken tok).obuf = p.obuf := by
  cases tok <;> rfl
@[simp] theorem Pcmd.countToken_res (tok : Token) (p : Pcmd) : (p.countToken tok).res = p.res := by
  cases tok <;> rfl
@[simp] theorem Pcmd.countToken_onByte (b : Byte) (p : Pcmd) :
    p.countToken (.byte b) = { p with byteCount := p.byteCount + 1 } := rfl
@[simp] theorem Pcmd.countToken_onEnd (p : Pcmd) : p.countToken .endOfInput = p := rfl
@[simp] theorem Pcmd.countToken_onErr (p : Pcmd) : p.countToken .err = p := rfl

/-! ### The result store -/

@[simp] theorem ResStore.append_w (k : Half) (v : Int) (r : ResStore) : (r.append k v).w = r.w := rfl
@[simp] theorem ResStore.append_n (k : Half) (v : Int) (r : ResStore) : (r.append k v).n = r.n := rfl
@[simp] theorem ResStore.append_seqs (k : Half) (v : Int) (r : ResStore) :
    (r.append k v).seqs = r.seqs.modify k.toNat (fun seq => seq ++ [v]) := rfl
@[simp] theorem ResStore.emptied_w (r : ResStore) : r.emptied.w = r.w := rfl
@[simp] theorem ResStore.emptied_n (r : ResStore) : r.emptied.n = 0 := rfl
@[simp] theorem ResStore.emptied_seqs (r : ResStore) : r.emptied.seqs = [] := rfl
@[simp] theorem ResStore.start_w (b c : Half) : (ResStore.start b c).w = ResWidth.ofBits b := rfl
@[simp] theorem ResStore.start_n (b c : Half) : (ResStore.start b c).n = c := rfl
@[simp] theorem ResStore.start_seqs (b c : Half) : (ResStore.start b c).seqs = List.replicate c.toNat [] := rfl

/-! ### The machine's state -/

@[simp] theorem State.resetStep_pcmd (s : State) : s.resetStep.pcmd = Pcmd.reset := rfl
@[simp] theorem State.resetStep_regErr (s : State) : s.resetStep.regErr = false := rfl
@[simp] theorem State.resetStep_stream (s : State) : s.resetStep.stream = s.stream := rfl
@[simp] theorem State.resetStep_taken (s : State) : s.resetStep.taken = s.taken := rfl
@[simp] theorem State.resetStep_host (s : State) : s.resetStep.host = s.host := rfl
@[simp] theorem State.resetStep_events (s : State) : s.resetStep.events = s.events := rfl
@[simp] theorem HostAgent.goTo_prog (l : Nat) (h : HostAgent) : (h.goTo l).prog = h.prog := rfl
@[simp] theorem HostAgent.goTo_pos (l : Nat) (h : HostAgent) : (h.goTo l).pos = l := rfl
@[simp] theorem HostAgent.goTo_status (l : Nat) (h : HostAgent) : (h.goTo l).status = h.status := rfl
@[simp] theorem HostAgent.goTo_vars (l : Nat) (h : HostAgent) : (h.goTo l).vars = h.vars := rfl
@[simp] theorem HostAgent.goTo_out (l : Nat) (h : HostAgent) : (h.goTo l).out = h.out := rfl
@[simp] theorem HostAgent.goTo_record (l : Nat) (h : HostAgent) : (h.goTo l).record = h.record := rfl
@[simp] theorem HostAgent.advance_prog (h : HostAgent) : h.advance.prog = h.prog := rfl
@[simp] theorem HostAgent.advance_pos (h : HostAgent) : h.advance.pos = h.pos + 1 := rfl
@[simp] theorem HostAgent.advance_status (h : HostAgent) : h.advance.status = h.status := rfl
@[simp] theorem HostAgent.advance_vars (h : HostAgent) : h.advance.vars = h.vars := rfl
@[simp] theorem HostAgent.advance_out (h : HostAgent) : h.advance.out = h.out := rfl
@[simp] theorem HostAgent.advance_record (h : HostAgent) : h.advance.record = h.record := rfl
@[simp] theorem HostAgent.setVar_prog (n : HVar) (v : Word) (h : HostAgent) : (h.setVar n v).prog = h.prog := rfl
@[simp] theorem HostAgent.setVar_pos (n : HVar) (v : Word) (h : HostAgent) : (h.setVar n v).pos = h.pos := rfl
@[simp] theorem HostAgent.setVar_status (n : HVar) (v : Word) (h : HostAgent) : (h.setVar n v).status = h.status := rfl
@[simp] theorem HostAgent.setVar_vars (n : HVar) (v : Word) (h : HostAgent) : (h.setVar n v).vars = h.vars.set n v := rfl
@[simp] theorem HostAgent.setVar_out (n : HVar) (v : Word) (h : HostAgent) : (h.setVar n v).out = h.out := rfl
@[simp] theorem HostAgent.setVar_record (n : HVar) (v : Word) (h : HostAgent) : (h.setVar n v).record = h.record := rfl
@[simp] theorem HostAgent.output_prog (k n : HVar) (h : HostAgent) : (h.output k n).prog = h.prog := rfl
@[simp] theorem HostAgent.output_pos (k n : HVar) (h : HostAgent) : (h.output k n).pos = h.pos := rfl
@[simp] theorem HostAgent.output_status (k n : HVar) (h : HostAgent) : (h.output k n).status = h.status := rfl
@[simp] theorem HostAgent.output_vars (k n : HVar) (h : HostAgent) : (h.output k n).vars = h.vars := rfl
@[simp] theorem HostAgent.output_record (k n : HVar) (h : HostAgent) : (h.output k n).record = h.record := rfl
@[simp] theorem HostAgent.output_out (k n : HVar) (h : HostAgent) :
    (h.output k n).out = OutLists.append (h.vars.get k).toNat (h.vars.get n) h.out := rfl

@[simp] theorem HostVars.get_set_same (vs : HostVars) (h : HVar) (v : Word) : (vs.set h v).get h = v := by
  cases h <;> rfl

theorem HostVars.get_set_other (vs : HostVars) (h g : HVar) (v : Word) (ne : g ≠ h) : (vs.set h v).get g = vs.get g := by
  cases h <;> cases g <;> first | rfl | exact absurd rfl ne

@[simp] theorem FormatRecord.get_save_same (r : FormatRecord) (f : FormatField) (v : Word) : (r.save f v).get f = some v := by
  cases f <;> rfl

theorem FormatRecord.get_save_other (r : FormatRecord) (f g : FormatField) (v : Word) (ne : g ≠ f) :
    (r.save f v).get g = r.get g := by
  cases f <;> cases g <;> first | rfl | exact absurd rfl ne

end Sys2Proof.Machine
end

