-- ==== Sys2Proof/Laws/Ops.lean ====
section
/-! SUPPORT. Each shared operation said once: what a step of a command can do, what a token means, and the values and lists the operations build. -/

namespace Sys2Proof.Machine

/-! ### Outcomes -/

@[simp] theorem mapNext_next {α β φ ρ : Type} (f : α → β) (a : α) :
    mapNext f (.next a : Host.Outcome α φ ρ) = .next (f a) := rfl

@[simp] theorem mapNext_fault {α β φ ρ : Type} (f : α → β) (r : φ) :
    mapNext f (.fault r : Host.Outcome α φ ρ) = .fault r := rfl

@[simp] theorem mapNext_refused {α β φ ρ : Type} (f : α → β) (r : ρ) :
    mapNext f (.refused r : Host.Outcome α φ ρ) = .refused r := rfl

theorem mapNext_eq_next {α β φ ρ : Type} {f : α → β} {o : Host.Outcome α φ ρ} {b : β} :
    mapNext f o = .next b ↔ ∃ a, o = .next a ∧ f a = b := by
  cases o <;> simp [mapNext]

theorem mapNext_eq_fault {α β φ ρ : Type} {f : α → β} {o : Host.Outcome α φ ρ} {r : φ} :
    mapNext f o = .fault r ↔ o = .fault r := by
  cases o <;> simp [mapNext]

theorem mapNext_eq_refused {α β φ ρ : Type} {f : α → β} {o : Host.Outcome α φ ρ} {r : ρ} :
    mapNext f o = .refused r ↔ o = .refused r := by
  cases o <;> simp [mapNext]

/-! ### The command that runs -/

theorem Pcmd.running_eq_none {p : Pcmd} : p.running = none ↔ p.mode = .idle := by
  unfold Pcmd.running; cases p.mode <;> cases p.need <;> simp

theorem Pcmd.running_eq_readU16 {p : Pcmd} : p.running = some .readU16 ↔ p.mode = .rd ∧ p.need = .two := by
  unfold Pcmd.running; cases p.mode <;> cases p.need <;> simp

theorem Pcmd.running_eq_readU32 {p : Pcmd} : p.running = some .readU32 ↔ p.mode = .rd ∧ p.need = .four := by
  unfold Pcmd.running; cases p.mode <;> cases p.need <;> simp

theorem Pcmd.running_eq_deinterleave {p : Pcmd} : p.running = some .deinterleave ↔ p.mode = .deint := by
  unfold Pcmd.running; cases p.mode <;> cases p.need <;> simp

theorem Pcmd.busy_eq_false {p : Pcmd} : p.busy = false ↔ p.mode = .idle := by
  simp [Pcmd.busy]

theorem Pcmd.busy_eq_true {p : Pcmd} : p.busy = true ↔ p.mode ≠ .idle := by
  simp [Pcmd.busy]

/-- Bits 0 to 3 of STATUS (R26). -/
theorem Pcmd.status_bits (p : Pcmd) :
    p.status.getLsbD 0 = p.busy ∧ p.status.getLsbD 1 = p.done ∧ p.status.getLsbD 2 = p.ovr ∧ p.status.getLsbD 3 = p.rvalid := by
  simp only [Pcmd.status, BitVec.getLsbD_append, BitVec.getLsbD_ofBool]
  simp

theorem Pcmd.sReady_eq_true {p : Pcmd} : p.sReady = true ↔ p.mode = .rd ∨ p.mode = .deint ∧ p.obuf.v = false := by
  unfold Pcmd.sReady; cases p.mode <;> simp

/-! ### Tokens -/

theorem Token.ofRaw_eq_byte {t : RawToken} {b : Byte} : Token.ofRaw t = .byte b ↔ tokenKind t = 0 ∧ tokenData t = b := by
  unfold Token.ofRaw; split <;> [skip; split] <;> simp_all

theorem Token.ofRaw_eq_endOfInput {t : RawToken} : Token.ofRaw t = .endOfInput ↔ tokenKind t = 1 := by
  unfold Token.ofRaw; split <;> [skip; split] <;> simp_all

theorem Token.ofRaw_eq_err {t : RawToken} : Token.ofRaw t = .err ↔ tokenKind t ≠ 0 ∧ tokenKind t ≠ 1 := by
  unfold Token.ofRaw; split <;> [skip; split] <;> simp_all

@[simp] theorem Token.ofRaw_rawByte (b : Byte) : Token.ofRaw (rawByte b) = .byte b := by
  have hb := b.isLt
  rw [Token.ofRaw_eq_byte]
  constructor <;> apply BitVec.eq_of_toNat_eq <;>
    simp [tokenKind, tokenData, rawByte, BitVec.extractLsb'_toNat, Nat.shiftRight_eq_div_pow] <;> omega

@[simp] theorem Token.ofRaw_rawEnd : Token.ofRaw rawEnd = .endOfInput := by decide

@[simp] theorem Token.ofRaw_rawErr : Token.ofRaw rawErr = .err := by decide

/-! ### One step of a command -/

/-- The acceptance part of a command. -/
def startOf : Instr → Pcmd → Pcmd
  | .deinterleave => Pcmd.startDeinterleave
  | .readU16 => Pcmd.startRead .two
  | .readU32 => Pcmd.startRead .four

/-- What a command does with a token. -/
def tokenOf : Instr → Token → Pcmd → Host.Outcome Pcmd Fault Refusal
  | .deinterleave => deinterleaveToken
  | .readU16 => readToken
  | .readU32 => readToken

theorem exec_eq_commandStep (i : Instr) (s : State) : exec i s = commandStep i (startOf i) (tokenOf i) s := by
  cases i <;> rfl

/-- At IDLE a command is accepted. -/
theorem exec_idle {i : Instr} {s : State} (h : s.pcmd.mode = .idle) :
    exec i s = .next { s with pcmd := startOf i (s.pcmd.acceptWord (encode i)) } := by
  simp [exec_eq_commandStep, commandStep, Pcmd.running_eq_none.2 h]

/-- While it runs, a command consumes a token. -/
theorem exec_running {i : Instr} {s : State} (h : s.pcmd.running = some i) : exec i s = consume (tokenOf i) s := by
  simp [exec_eq_commandStep, commandStep, h]

/-- While another command runs, its write is dropped. -/
theorem exec_other {i j : Instr} {s : State} (h : s.pcmd.running = some j) (ne : j ≠ i) :
    exec i s = .next { s with pcmd := s.pcmd.overrun } := by
  simp [exec_eq_commandStep, commandStep, h, ne]

/-- What `consume` does: hold, or take the first token. -/
theorem consume_hold {f : Token → Pcmd → Host.Outcome Pcmd Fault Refusal} {s : State}
    (h : s.pcmd.sReady = false ∨ s.stream = []) : consume f s = .next s := by
  unfold consume; split <;> simp_all

theorem consume_take {f : Token → Pcmd → Host.Outcome Pcmd Fault Refusal} {s : State} {t : RawToken} {ts : List RawToken}
    (hr : s.pcmd.sReady = true) (hs : s.stream = t :: ts) :
    consume f s = mapNext (fun p => { s with pcmd := p, stream := ts })
      (f (Token.ofRaw t) (s.pcmd.countToken (Token.ofRaw t))) := by
  unfold consume; split <;> simp_all

/-- A READ's token step never stops. -/
theorem readToken_next (tok : Token) (p : Pcmd) : ∃ q, readToken tok p = .next q := by
  cases tok <;> exact ⟨_, rfl⟩

theorem nextCursor_of_ne {cur c : Half} (h : c ≠ 0) : nextCursor cur c = some (BitVec.ofNat 16 ((cur.toNat + 1) % c.toNat)) := by
  rw [nextCursor, if_neg h]

theorem Pcmd.completeSample_of_ne {p : Pcmd} {smp : Sample} (h : p.channels ≠ 0) :
    p.completeSample smp =
      .next { p.emit p.cur smp with cur := BitVec.ofNat 16 ((p.cur.toNat + 1) % p.channels.toNat) } := by
  rw [Pcmd.completeSample, nextCursor_of_ne h]

/-- DEINTERLEAVE's token step stops only where the cursor has no modulus. -/
theorem deinterleaveToken_next {tok : Token} {p : Pcmd} (h : p.channels ≠ 0) : ∃ q, deinterleaveToken tok p = .next q := by
  have hs : ∀ (smp : Sample) (q : Pcmd), q.channels ≠ 0 → ∃ r, q.completeSample smp = .next r := by
    intro smp q hq
    exact ⟨_, Pcmd.completeSample_of_ne hq⟩
  cases tok with
  | byte x =>
    simp only [deinterleaveToken, Pcmd.deinterleaveByte]
    split
    · exact hs _ _ h
    · split
      · exact ⟨_, rfl⟩
      · exact hs _ _ h
  | endOfInput => exact ⟨_, rfl⟩
  | err => exact ⟨_, rfl⟩

/-- A BYTE token in 8-bit mode (R143). -/
theorem deinterleaveToken_byte8 {p : Pcmd} {x : Byte} (hb : p.bits = 8) (hc : p.channels ≠ 0) :
    deinterleaveToken (.byte x) p =
      .next { p.emit p.cur (.byte x) with cur := BitVec.ofNat 16 ((p.cur.toNat + 1) % p.channels.toNat) } := by
  rw [deinterleaveToken, Pcmd.deinterleaveByte, if_pos hb, Pcmd.completeSample_of_ne hc]

/-- The first BYTE token of a pair in 16-bit mode (R145). -/
theorem deinterleaveToken_first {p : Pcmd} {x : Byte} (hb : p.bits ≠ 8) (hp : p.pend = false) :
    deinterleaveToken (.byte x) p = .next { p with low := x, pend := true } := by
  rw [deinterleaveToken, Pcmd.deinterleaveByte, if_neg hb, if_pos hp]

/-- The second BYTE token of a pair in 16-bit mode (R145). -/
theorem deinterleaveToken_second {p : Pcmd} {x : Byte} (hb : p.bits ≠ 8) (hp : p.pend = true) (hc : p.channels ≠ 0) :
    deinterleaveToken (.byte x) p =
      .next { ({ p with low := 0, pend := false } : Pcmd).emit p.cur (.word (wordOfBytes p.low x)) with
        cur := BitVec.ofNat 16 ((p.cur.toNat + 1) % p.channels.toNat) } := by
  rw [deinterleaveToken, Pcmd.deinterleaveByte, if_neg hb, if_neg (by simp [hp])]
  exact Pcmd.completeSample_of_ne (p := { p with low := 0, pend := false }) hc

/-- Everything a READ's token step can do (R112). -/
theorem readToken_cases {tok : Token} {p q : Pcmd} (h : readToken tok p = .next q) :
    (∃ b, tok = .byte b ∧ p.nb + 1 = p.need.count ∧
      q = { p with acc := gather p.acc p.nb b, nb := p.nb + 1, result := gather p.acc p.nb b, mode := .idle, done := true,
                   err := 0 }) ∨
    (∃ b, tok = .byte b ∧ p.nb + 1 ≠ p.need.count ∧ q = { p with acc := gather p.acc p.nb b, nb := p.nb + 1 }) ∨
    ((tok = .endOfInput ∨ tok = .err) ∧ q = { p with mode := .idle, done := true, err := 1 }) := by
  cases tok with
  | byte b =>
    simp only [readToken, Pcmd.readByte, Host.Outcome.next.injEq] at h
    split at h
    · rename_i hn
      exact .inl ⟨b, rfl, hn, h.symm⟩
    · rename_i hn
      exact .inr (.inl ⟨b, rfl, hn, h.symm⟩)
  | endOfInput =>
    simp only [readToken, Host.Outcome.next.injEq] at h
    exact .inr (.inr ⟨.inl rfl, h.symm⟩)
  | err =>
    simp only [readToken, Host.Outcome.next.injEq] at h
    exact .inr (.inr ⟨.inr rfl, h.symm⟩)

/-- Everything DEINTERLEAVE's token step can do (R140). -/
theorem deinterleaveToken_cases {tok : Token} {p q : Pcmd} (h : deinterleaveToken tok p = .next q) :
    (∃ x, tok = .byte x ∧ p.bits = 8 ∧ p.channels ≠ 0 ∧
      q = { p.emit p.cur (.byte x) with cur := BitVec.ofNat 16 ((p.cur.toNat + 1) % p.channels.toNat) }) ∨
    (∃ x, tok = .byte x ∧ p.bits ≠ 8 ∧ p.pend = false ∧ q = { p with low := x, pend := true }) ∨
    (∃ x, tok = .byte x ∧ p.bits ≠ 8 ∧ p.pend = true ∧ p.channels ≠ 0 ∧
      q = { ({ p with low := 0, pend := false } : Pcmd).emit p.cur (.word (wordOfBytes p.low x)) with
        cur := BitVec.ofNat 16 ((p.cur.toNat + 1) % p.channels.toNat) }) ∨
    (tok = .endOfInput ∧ p.cur = 0 ∧ p.pend = false ∧ q = { p with mode := .idle, done := true, err := 0 }) ∨
    (tok = .endOfInput ∧ ¬ (p.cur = 0 ∧ p.pend = false) ∧ q = { p with mode := .idle, done := true, err := 4 }) ∨
    (tok = .err ∧ q = { p with mode := .idle, done := true, err := 1 }) := by
  have channels_ne : ∀ {r r' : Pcmd} {smp : Sample}, r.completeSample smp = .next r' → r.channels ≠ 0 := by
    intro r r' smp hr hc
    simp [Pcmd.completeSample, nextCursor, hc] at hr
  cases tok with
  | byte x =>
    by_cases hb : p.bits = 8
    · have hc : p.channels ≠ 0 := by
        rw [deinterleaveToken, Pcmd.deinterleaveByte, if_pos hb] at h
        exact channels_ne h
      rw [deinterleaveToken_byte8 hb hc, Host.Outcome.next.injEq] at h
      exact .inl ⟨x, rfl, hb, hc, h.symm⟩
    · cases hp : p.pend with
      | false =>
        rw [deinterleaveToken_first hb hp, Host.Outcome.next.injEq] at h
        exact .inr (.inl ⟨x, rfl, hb, rfl, h.symm⟩)
      | true =>
        have hc : p.channels ≠ 0 := by
          rw [deinterleaveToken, Pcmd.deinterleaveByte, if_neg hb, if_neg (by simp [hp])] at h
          exact channels_ne (r := { p with low := 0, pend := false }) h
        rw [deinterleaveToken_second hb hp hc, Host.Outcome.next.injEq] at h
        exact .inr (.inr (.inl ⟨x, rfl, hb, rfl, hc, h.symm⟩))
  | endOfInput =>
    rw [deinterleaveToken, Host.Outcome.next.injEq, Pcmd.deinterleaveEnd] at h
    split at h
    · rename_i he
      exact .inr (.inr (.inr (.inl ⟨rfl, he.1, he.2, h.symm⟩)))
    · rename_i he
      exact .inr (.inr (.inr (.inr (.inl ⟨rfl, he, h.symm⟩))))
  | err =>
    rw [deinterleaveToken, Host.Outcome.next.injEq] at h
    exact .inr (.inr (.inr (.inr (.inr ⟨rfl, h.symm⟩))))

/-- DEINTERLEAVE's acceptance part: the two failures and the start (R140, R142). -/
theorem startDeinterleave_cases (p : Pcmd) :
    ((bpsField p.config ≠ 8 ∧ bpsField p.config ≠ 16) ∧
      p.startDeinterleave = { p with lconfig := p.config, res := p.res.emptied, mode := .idle, done := true, err := 3 }) ∨
    ((bpsField p.config = 8 ∨ bpsField p.config = 16) ∧ chField p.config = 0 ∧
      p.startDeinterleave = { p with lconfig := p.config, res := p.res.emptied, mode := .idle, done := true, err := 5 }) ∨
    ((bpsField p.config = 8 ∨ bpsField p.config = 16) ∧ chField p.config ≠ 0 ∧
      p.startDeinterleave = { p with
        lconfig := p.config, res := ResStore.start (bpsField p.config) (chField p.config), cur := 0, pend := false, low := 0,
        mode := .deint }) := by
  have unfolded : p.startDeinterleave =
      if bpsField p.config ≠ 8 ∧ bpsField p.config ≠ 16 then
        { p with lconfig := p.config, res := p.res.emptied, mode := .idle, done := true, err := 3 }
      else if chField p.config = 0 then
        { p with lconfig := p.config, res := p.res.emptied, mode := .idle, done := true, err := 5 }
      else
        { p with
          lconfig := p.config, res := ResStore.start (bpsField p.config) (chField p.config), cur := 0, pend := false, low := 0,
          mode := .deint } := rfl
  by_cases hb : bpsField p.config ≠ 8 ∧ bpsField p.config ≠ 16
  · exact .inl ⟨hb, by rw [unfolded, if_pos hb]⟩
  · have hb' : bpsField p.config = 8 ∨ bpsField p.config = 16 := by tauto
    by_cases hc : chField p.config = 0
    · exact .inr (.inl ⟨hb', hc, by rw [unfolded, if_neg hb, if_pos hc]⟩)
    · exact .inr (.inr ⟨hb', hc, by rw [unfolded, if_neg hb, if_neg hc]⟩)

/-! ### Fields -/

theorem toNat_opField (w : Word) : (opField w).toNat = w.toNat % 8 := by
  simp [opField, BitVec.extractLsb'_toNat]

theorem toNat_rsvField (w : Word) : (rsvField w).toNat = w.toNat / 8 := by
  have := w.isLt
  simp [rsvField, BitVec.extractLsb'_toNat, Nat.shiftRight_eq_div_pow]
  omega

@[simp] theorem chField_append (b c : Half) : chField (b ++ c) = c := by
  unfold chField; exact BitVec.extractLsb'_append_eq_right

@[simp] theorem bpsField_append (b c : Half) : bpsField (b ++ c) = b := by
  unfold bpsField; exact BitVec.extractLsb'_append_eq_left

/-! ### Values -/

/-- A byte gathered at place `nb` adds `b × 256^nb` (R117). -/
theorem toNat_gather {acc : Word} {nb : Nat} {b : Byte} (hn : nb < 4) (ha : acc.toNat < 256 ^ nb) :
    (gather acc nb b).toNat = acc.toNat + b.toNat * 256 ^ nb := by
  have hb := b.isLt
  have hp : (256 : Nat) ^ nb = 2 ^ (8 * nb) := by rw [show (256 : Nat) = 2 ^ 8 by norm_num, ← pow_mul]
  rw [hp] at ha ⊢
  have h4 : 2 ^ (8 * nb) * 256 ≤ 2 ^ 32 := by
    interval_cases nb <;> norm_num
  have hlt : b.toNat * 2 ^ (8 * nb) < 2 ^ 32 := by
    calc b.toNat * 2 ^ (8 * nb) < 256 * 2 ^ (8 * nb) := Nat.mul_lt_mul_of_pos_right hb (by positivity)
      _ = 2 ^ (8 * nb) * 256 := Nat.mul_comm _ _
      _ ≤ 2 ^ 32 := h4
  have hz : (b.zeroExtend 32).toNat = b.toNat := by
    simp [BitVec.toNat_setWidth]; omega
  simp only [gather, BitVec.toNat_or, BitVec.toNat_shiftLeft, hz, Nat.shiftLeft_eq]
  rw [Nat.mod_eq_of_lt hlt, Nat.or_comm, Nat.mul_comm, ← Nat.two_pow_add_eq_or_of_lt ha, Nat.add_comm]

/-- A word is its first byte low and its second high (R145). -/
theorem toNat_wordOfBytes (low x : Byte) : (wordOfBytes low x).toNat = low.toNat + 256 * x.toNat := by
  have h1 := low.isLt
  have h2 := x.isLt
  have hx : x.toNat % 2 ^ 16 * 2 ^ 8 % 2 ^ 16 = 2 ^ 8 * x.toNat := by omega
  simp only [wordOfBytes, BitVec.toNat_or, BitVec.toNat_shiftLeft, BitVec.truncate_eq_setWidth, BitVec.toNat_setWidth,
    Nat.shiftLeft_eq, hx]
  rw [Nat.mod_eq_of_lt (by omega), Nat.or_comm, ← Nat.two_pow_add_eq_or_of_lt (by omega)]
  omega

/-- The same as a concatenation. -/
theorem wordOfBytes_eq_append (low x : Byte) : wordOfBytes low x = x ++ low := by
  apply BitVec.eq_of_toNat_eq
  have h1 := low.isLt
  rw [toNat_wordOfBytes, BitVec.toNat_append, Nat.shiftLeft_eq, Nat.mul_comm x.toNat,
    ← Nat.two_pow_add_eq_or_of_lt (by omega)]
  omega

/-- `as_s8` is two's complement (R11). -/
theorem asS8_eq_toInt (b : Byte) : asS8 b = b.toInt := by
  simp only [asS8, BitVec.toInt]
  split <;> split <;> omega

theorem asS8_range (b : Byte) : -128 ≤ asS8 b ∧ asS8 b ≤ 127 := by
  have := b.isLt
  simp only [asS8]
  split <;> omega

/-! ### The result store -/

theorem ResStore.chan_append_self {r : ResStore} {k : Half} {v : Int} (h : k.toNat < r.seqs.length) :
    (r.append k v).chan k.toNat = r.chan k.toNat ++ [v] := by
  simp [ResStore.chan, h]

theorem ResStore.chan_append_other {r : ResStore} {k : Half} {v : Int} {j : Nat} (ne : j ≠ k.toNat) :
    (r.append k v).chan j = r.chan j := by
  simp [ResStore.chan, Ne.symm ne]

/-! ### The host's lists -/

theorem OutLists.at_of_lt {lo k : Nat} {o : OutLists} (h : OutLists.wfFrom lo o = true) (hk : k < lo) : OutLists.at k o = [] := by
  induction o generalizing lo with
  | nil => rfl
  | cons e rest ih =>
    obtain ⟨k', l⟩ := e
    simp only [OutLists.wfFrom, Bool.and_eq_true, decide_eq_true_eq] at h
    rw [OutLists.at, if_neg (by omega)]
    exact ih h.2 (by omega)

theorem OutLists.at_append_self {lo k : Nat} {v : Word} {o : OutLists} (h : OutLists.wfFrom lo o = true) :
    OutLists.at k (OutLists.append k v o) = OutLists.at k o ++ [v] := by
  induction o generalizing lo with
  | nil => simp [OutLists.append, OutLists.at]
  | cons e rest ih =>
    obtain ⟨k', l⟩ := e
    simp only [OutLists.wfFrom, Bool.and_eq_true, decide_eq_true_eq] at h
    unfold OutLists.append
    split
    · rename_i hlt
      rw [OutLists.at, if_pos rfl, OutLists.at, if_neg (by omega), OutLists.at_of_lt h.2 (by omega)]
      rfl
    · split
      · rename_i heq
        rw [OutLists.at, if_pos heq, OutLists.at, if_pos heq]
      · rename_i hne
        rw [OutLists.at, if_neg hne, OutLists.at, if_neg hne]
        exact ih h.2

theorem OutLists.at_append_other {j k : Nat} {v : Word} {o : OutLists} (ne : j ≠ k) :
    OutLists.at j (OutLists.append k v o) = OutLists.at j o := by
  induction o with
  | nil => simp [OutLists.append, OutLists.at, ne]
  | cons e rest ih =>
    obtain ⟨k', l⟩ := e
    unfold OutLists.append
    split
    · rw [OutLists.at, if_neg ne]
    · split
      · rename_i heq
        subst heq
        rw [OutLists.at, if_neg ne, OutLists.at, if_neg ne]
      · simp only [OutLists.at, ih]

/-- Appending keeps the canonical form (log 16). -/
theorem OutLists.wfFrom_append {lo k : Nat} {v : Word} {o : OutLists} (h : OutLists.wfFrom lo o = true) (hk : lo ≤ k) :
    OutLists.wfFrom lo (OutLists.append k v o) = true := by
  induction o generalizing lo with
  | nil => simp [OutLists.append, OutLists.wfFrom, hk]
  | cons e rest ih =>
    obtain ⟨k', l⟩ := e
    simp only [OutLists.wfFrom, Bool.and_eq_true, decide_eq_true_eq] at h
    unfold OutLists.append
    split
    · simp only [OutLists.wfFrom, Bool.and_eq_true, decide_eq_true_eq]
      exact ⟨⟨hk, rfl⟩, ⟨by omega, h.1.2⟩, h.2⟩
    · split
      · simp only [OutLists.wfFrom, Bool.and_eq_true, decide_eq_true_eq]
        exact ⟨⟨h.1.1, by simp⟩, h.2⟩
      · simp only [OutLists.wfFrom, Bool.and_eq_true, decide_eq_true_eq]
        exact ⟨h.1, ih h.2 (by omega)⟩

theorem OutLists.wf_append {k : Nat} {v : Word} {o : OutLists} (h : OutLists.wf o = true) :
    OutLists.wf (OutLists.append k v o) = true :=
  OutLists.wfFrom_append h (Nat.zero_le k)

end Sys2Proof.Machine
end

