-- ==== Sys2Proof/Laws/Step.lean ====
section
/-! SUPPORT. Everything one step can do, said once. -/

namespace Sys2Proof.Machine

/-- What a step does to PCMD, and to the tokens, the beats taken and the host's lists that go with it. -/
inductive StepKind (s t : State) : Prop where
  /-- PCMD is as it was: a read, a bus error, a host statement, a hold, an empty transfer. -/
  | quiet (hp : t.pcmd = s.pcmd) (hc : s.consumed? = none) (hr : s.resetNext = false) (hw : s.cmdWrite? = none)
      (ht : t.taken = s.taken) (hs : s.newStreamNext = false → ∃ added, t.stream = s.stream ++ added)
      (ho : OutLists.wf s.host.out = true → OutLists.wf t.host.out = true)
  /-- A reset. -/
  | reset (hp : t.pcmd = Pcmd.reset) (hc : s.consumed? = none) (hr : s.resetNext = true) (hw : s.cmdWrite? = none)
      (ht : t.taken = s.taken) (hs : t.stream = s.stream) (ho : t.host.out = s.host.out)
  /-- A write of CONFIG. -/
  | config (v : Word) (hp : t.pcmd = { s.pcmd with config := v }) (hc : s.consumed? = none) (hr : s.resetNext = false)
      (hw : s.cmdWrite? = none) (ht : t.taken = s.taken) (hs : t.stream = s.stream) (ho : t.host.out = s.host.out)
  /-- A beat transfers. -/
  | beat (hv : s.pcmd.obuf.v = true) (hp : t.pcmd = { s.pcmd with obuf := { s.pcmd.obuf with v := false } })
      (hc : s.consumed? = none) (hr : s.resetNext = false) (hw : s.cmdWrite? = none)
      (ht : t.taken = s.taken ++ [s.pcmd.obuf.beat]) (hs : t.stream = s.stream) (ho : t.host.out = s.host.out)
  /-- A CMD write while busy. -/
  | dropped (w : Word) (hb : s.pcmd.mode ≠ .idle) (hp : t.pcmd = s.pcmd.overrun) (hc : s.consumed? = none)
      (hr : s.resetNext = false) (hw : s.cmdWrite? = some w) (ht : t.taken = s.taken) (hs : t.stream = s.stream)
      (ho : t.host.out = s.host.out)
  /-- An illegal word is accepted. -/
  | illegal (w : Word) (why : DecodeReject) (hb : s.pcmd.mode = .idle) (hd : decode w = .illegal why)
      (hp : t.pcmd = s.pcmd.acceptIllegal w) (hc : s.consumed? = none) (hr : s.resetNext = false)
      (hw : s.cmdWrite? = some w) (ht : t.taken = s.taken) (hs : t.stream = s.stream) (ho : t.host.out = s.host.out)
  /-- A command is accepted. -/
  | accepted (w : Word) (i : Instr) (hb : s.pcmd.mode = .idle) (hd : decode w = .command i)
      (hp : t.pcmd = startOf i (s.pcmd.acceptWord (encode i))) (hc : s.consumed? = none) (hr : s.resetNext = false)
      (hw : s.cmdWrite? = some w) (ht : t.taken = s.taken) (hs : t.stream = s.stream) (ho : t.host.out = s.host.out)
  /-- The running command consumes a token. -/
  | token (i : Instr) (tok : RawToken) (hb : s.pcmd.running = some i) (hy : s.pcmd.sReady = true)
      (hp : tokenOf i (Token.ofRaw tok) (s.pcmd.countToken (Token.ofRaw tok)) = .next t.pcmd)
      (hc : s.consumed? = some tok) (hr : s.resetNext = false) (hw : s.cmdWrite? = none) (ht : t.taken = s.taken)
      (hs : s.stream = tok :: t.stream) (ho : t.host.out = s.host.out)

/-- A listed step. -/
theorem step_listed {s : State} {e : Event} {es : List Event} (h : s.events = e :: es) :
    step s = eventStep e { s with events := es } := by
  simp [step, h]

/-- No step is listed. -/
theorem step_unlisted {s : State} (h : s.events = []) : step s = unlistedStep s := by
  simp [step, h]

/-- The host's step on the statement it stands at. -/
theorem hostStep_of_fetch {s : State} {st : HostStmt} (h : s.host.fetch = some st) :
    hostStep s = hostExec st { s with host := s.host.advance } := by
  simp [hostStep, h]

/-- A beat transfers. -/
theorem takeBeat_of_valid {s : State} (h : s.pcmd.obuf.v = true) :
    s.takeBeat = { s with pcmd := { s.pcmd with obuf := { s.pcmd.obuf with v := false } },
                          taken := s.taken ++ [s.pcmd.obuf.beat] } := if_pos h

/-- No beat is on offer. -/
theorem takeBeat_of_empty {s : State} (h : s.pcmd.obuf.v = false) : s.takeBeat = s := if_neg (by simp [Pcmd.mValid, h])

/-- TAKE with a beat on offer (R91). -/
theorem hostTake_of_valid {s : State} {n : HVar} (h : s.pcmd.obuf.v = true) :
    s.hostTake n = { s with
      pcmd := { s.pcmd with obuf := { s.pcmd.obuf with v := false } }, taken := s.taken ++ [s.pcmd.obuf.beat],
      host := (s.host.setVar n s.pcmd.obuf.beat.takeWord).setVar .h7 (s.pcmd.obuf.k.zeroExtend 32) } := by
  rw [State.hostTake, if_pos (by exact h), takeBeat_of_valid h]

/-- TAKE with none (R91). -/
theorem hostTake_of_empty {s : State} {n : HVar} (h : s.pcmd.obuf.v = false) :
    s.hostTake n = { s with host := s.host.setVar n 0xFFFFFFFF } := if_neg (by simp [Pcmd.mValid, h])

theorem regWrite_cmd (w : Word) (s : State) : regWrite Reg.cmd.offset w s = writeCmd w { s with regErr := false } := rfl

theorem regWrite_config (v : Word) (s : State) :
    regWrite Reg.config.offset v s = .next { s with regErr := false, pcmd := { s.pcmd with config := v } } := rfl

theorem writeCmd_busy {w : Word} {s : State} (h : s.pcmd.mode ≠ .idle) :
    writeCmd w s = .next { s with pcmd := s.pcmd.overrun } := by
  rw [writeCmd, if_pos (Pcmd.busy_eq_true.2 h)]

theorem writeCmd_command {w : Word} {s : State} {i : Instr} (h : s.pcmd.mode = .idle) (hd : decode w = .command i) :
    writeCmd w s = exec i s := by
  simp [writeCmd, Pcmd.busy_eq_false.2 h, hd]

theorem writeCmd_illegal {w : Word} {s : State} {why : DecodeReject} (h : s.pcmd.mode = .idle) (hd : decode w = .illegal why) :
    writeCmd w s = .next { s with pcmd := s.pcmd.acceptIllegal w } := by
  simp [writeCmd, Pcmd.busy_eq_false.2 h, hd]

/-- What a CMD write does. -/
theorem writeCmd_cases {w : Word} {s t : State} (h : writeCmd w s = .next t) :
    (s.pcmd.mode ≠ .idle ∧ t = { s with pcmd := s.pcmd.overrun }) ∨
    (s.pcmd.mode = .idle ∧ ∃ why, decode w = .illegal why ∧ t = { s with pcmd := s.pcmd.acceptIllegal w }) ∨
    (s.pcmd.mode = .idle ∧ ∃ i, decode w = .command i ∧ t = { s with pcmd := startOf i (s.pcmd.acceptWord (encode i)) }) := by
  unfold writeCmd at h
  split at h
  · rename_i hb
    cases h
    exact .inl ⟨Pcmd.busy_eq_true.1 hb, rfl⟩
  · rename_i hb
    have hm : s.pcmd.mode = .idle := Pcmd.busy_eq_false.1 (by simpa using hb)
    split at h
    · rename_i i hd
      rw [exec_idle hm] at h
      cases h
      exact .inr (.inr ⟨hm, i, hd, rfl⟩)
    · rename_i why hd
      cases h
      exact .inr (.inl ⟨hm, why, hd, rfl⟩)

/-- A CMD write never stops. -/
theorem writeCmd_next (w : Word) (s : State) : ∃ t, writeCmd w s = .next t := by
  unfold writeCmd
  split
  · exact ⟨_, rfl⟩
  · rename_i hb
    split
    · rw [exec_idle (Pcmd.busy_eq_false.1 (by simpa using hb))]
      exact ⟨_, rfl⟩
    · exact ⟨_, rfl⟩

/-- A register write never stops. -/
theorem regWrite_next (off : Byte) (data : Word) (s : State) : ∃ t, regWrite off data s = .next t := by
  unfold regWrite
  split <;> first | exact writeCmd_next _ _ | exact ⟨_, rfl⟩

theorem Reg.ofOffset_eq_cmd {off : Byte} : Reg.ofOffset off = some .cmd ↔ off = Reg.cmd.offset := by
  unfold Reg.ofOffset Reg.offset
  split <;> [skip; (repeat' split)] <;> simp_all

/-- What a register write does. -/
theorem regWrite_cases {off : Byte} {data : Word} {s t : State} (h : regWrite off data s = .next t) :
    (off = Reg.cmd.offset ∧ writeCmd data { s with regErr := false } = .next t) ∨
    (off ≠ Reg.cmd.offset ∧ t = { s with regErr := false, pcmd := { s.pcmd with config := data } }) ∨
    (off ≠ Reg.cmd.offset ∧ t = { s with regErr := true }) := by
  unfold regWrite at h
  split at h
  · rename_i hr
    exact .inl ⟨Reg.ofOffset_eq_cmd.1 hr, h⟩
  all_goals
    rename_i hr
    have ne : off ≠ Reg.cmd.offset := by
      intro he
      rw [Reg.ofOffset_eq_cmd.2 he] at hr
      cases hr
    cases h
    first
      | exact .inr (.inl ⟨ne, rfl⟩)
      | exact .inr (.inr ⟨ne, rfl⟩)

/-- A register write as a kind of step, `u` being the state the write acts on. -/
theorem regWrite_kind {off : Byte} {data : Word} {s u t : State} (h : regWrite off data u = .next t)
    (hp : u.pcmd = s.pcmd) (hk : u.taken = s.taken) (hst : u.stream = s.stream) (hout : u.host.out = s.host.out)
    (hc : s.consumed? = none) (hr : s.resetNext = false) (hw : s.nextWrite? = some (off, data)) : StepKind s t := by
  rcases regWrite_cases h with ⟨ho, h⟩ | ⟨ho, rfl⟩ | ⟨ho, rfl⟩
  · have hw' : s.cmdWrite? = some data := by simp [State.cmdWrite?, hw, ho]
    rcases writeCmd_cases h with ⟨hb, rfl⟩ | ⟨hb, why, hd, rfl⟩ | ⟨hb, i, hd, rfl⟩
    · exact .dropped data (by simpa [hp] using hb) (by simp [hp]) hc hr hw' hk hst hout
    · exact .illegal data why (by simpa [hp] using hb) hd (by simp [hp]) hc hr hw' hk hst hout
    · exact .accepted data i (by simpa [hp] using hb) hd (by simp [hp]) hc hr hw' hk hst hout
  · have hw' : s.cmdWrite? = none := by simp [State.cmdWrite?, hw, ho]
    exact .config data (by simp [hp]) hc hr hw' hk hst hout
  · have hw' : s.cmdWrite? = none := by simp [State.cmdWrite?, hw, ho]
    exact .quiet hp hc hr hw' hk (fun _ => ⟨[], by simp [hst]⟩) (fun h => by simpa [hout] using h)

/-- PCMD's own step as a kind of step, `u` being the state it acts on. -/
theorem pcmdStep_kind {s u t : State} (h : pcmdStep u = .next t)
    (hp : u.pcmd = s.pcmd) (hk : u.taken = s.taken) (hst : u.stream = s.stream) (hout : u.host.out = s.host.out)
    (hn : s.pcmdNext = true) (hr : s.resetNext = false) (hw : s.cmdWrite? = none) : StepKind s t := by
  unfold pcmdStep at h
  split at h
  · rename_i hi
    cases h
    have hm := Pcmd.running_eq_none.1 hi
    have hy : s.pcmd.sReady = false := by rw [← hp]; simp [Pcmd.sReady, hm]
    exact .quiet hp (by simp [State.consumed?, hy]) hr hw hk (fun _ => ⟨[], by simp [hst]⟩) (fun h => by simpa [hout] using h)
  · rename_i i hi
    rw [exec_running hi] at h
    by_cases hy : u.pcmd.sReady = true
    · cases hs : u.stream with
      | nil =>
        rw [consume_hold (.inr hs)] at h
        cases h
        exact .quiet hp (by simp [State.consumed?, ← hst, hs]) hr hw hk (fun _ => ⟨[], by simp [hst]⟩)
          (fun h => by simpa [hout] using h)
      | cons tok ts =>
        rw [consume_take hy hs, mapNext_eq_next] at h
        obtain ⟨p, hq, rfl⟩ := h
        exact .token i tok (by rw [← hp]; exact hi) (by rw [← hp]; exact hy) (by rw [← hp]; exact hq)
          (by simp [State.consumed?, hn, ← hp, hy, ← hst, hs]) hr hw hk (by rw [← hst]; exact hs) hout
    · rw [consume_hold (.inl (by simpa using hy))] at h
      cases h
      have hy' : s.pcmd.sReady = false := by rw [← hp]; simpa using hy
      exact .quiet hp (by simp [State.consumed?, hy']) hr hw hk (fun _ => ⟨[], by simp [hst]⟩)
        (fun h => by simpa [hout] using h)

/-- A beat transfer as a kind of step. -/
theorem takeBeat_kind {s t : State} (hp : t.pcmd = s.takeBeat.pcmd) (hk : t.taken = s.takeBeat.taken)
    (hst : t.stream = s.stream) (hout : t.host.out = s.host.out) (hc : s.consumed? = none) (hr : s.resetNext = false)
    (hw : s.cmdWrite? = none) : StepKind s t := by
  by_cases hv : s.pcmd.obuf.v = true
  · exact .beat hv (by simpa [State.takeBeat, Pcmd.mValid, hv] using hp) hc hr hw
      (by simpa [State.takeBeat, Pcmd.mValid, hv] using hk) hst hout
  · exact .quiet (by simpa [State.takeBeat, Pcmd.mValid, hv] using hp) hc hr hw
      (by simpa [State.takeBeat, Pcmd.mValid, hv] using hk) (fun _ => ⟨[], by simp [hst]⟩) (fun h => by simpa [hout] using h)

/-- A host statement as a kind of step, `u` being the state it acts on. -/
theorem hostExec_kind {st : HostStmt} {s u t : State} (h : hostExec st u = .next t)
    (hp : u.pcmd = s.pcmd) (hk : u.taken = s.taken) (hst : u.stream = s.stream) (hout : u.host.out = s.host.out)
    (hv : u.host.vars = s.host.vars) (hc : s.consumed? = none) (hr : s.resetNext = false)
    (hw : s.nextWrite? = HostStmt.write? s.host.vars st) : StepKind s t := by
  have none_of : HostStmt.write? s.host.vars st = none → s.cmdWrite? = none := by
    intro hn
    simp [State.cmdWrite?, hw, hn]
  cases st with
  | wrImm off v => exact regWrite_kind h hp hk hst hout hc hr hw
  | wrVar off n => exact regWrite_kind h hp hk hst hout hc hr (by simpa [HostStmt.write?, hv] using hw)
  | take n =>
    cases h
    refine takeBeat_kind ?_ ?_ ?_ ?_ hc hr (none_of rfl) <;>
      by_cases hm : s.pcmd.obuf.v = true <;> simp [State.hostTake, State.takeBeat, Pcmd.mValid, hp, hk, hst, hout, hm]
  | out k n =>
    cases h
    exact .quiet hp hc hr (none_of rfl) hk (fun _ => ⟨[], by simp [hst]⟩)
      (fun h => by simpa [hout] using OutLists.wf_append h)
  | push b => cases h; exact .quiet hp hc hr (none_of rfl) hk (fun _ => ⟨_, by simp [hst]; rfl⟩) (fun h => by simpa [hout] using h)
  | pushEnd => cases h; exact .quiet hp hc hr (none_of rfl) hk (fun _ => ⟨_, by simp [hst]; rfl⟩) (fun h => by simpa [hout] using h)
  | pushErr => cases h; exact .quiet hp hc hr (none_of rfl) hk (fun _ => ⟨_, by simp [hst]; rfl⟩) (fun h => by simpa [hout] using h)
  | failErr =>
    simp only [hostExec] at h
    split at h <;> cases h
    exact .quiet hp hc hr (none_of rfl) hk (fun _ => ⟨[], by simp [hst]⟩) (fun h => by simpa [hout] using h)
  | beq n v l =>
    cases h
    exact .quiet hp hc hr (none_of rfl) hk (fun _ => ⟨[], by simp [hst]⟩) (fun h => by simp only; split <;> simpa [hout] using h)
  | bne n v l =>
    cases h
    exact .quiet hp hc hr (none_of rfl) hk (fun _ => ⟨[], by simp [hst]⟩) (fun h => by simp only; split <;> simpa [hout] using h)
  | rd n off => cases h; exact .quiet hp hc hr (none_of rfl) hk (fun _ => ⟨[], by simp [hst]⟩) (fun h => by simpa [hout] using h)
  | save f n => cases h; exact .quiet hp hc hr (none_of rfl) hk (fun _ => ⟨[], by simp [hst]⟩) (fun h => by simpa [hout] using h)
  | jmp l => cases h; exact .quiet hp hc hr (none_of rfl) hk (fun _ => ⟨[], by simp [hst]⟩) (fun h => by simpa [hout] using h)
  | and n v => cases h; exact .quiet hp hc hr (none_of rfl) hk (fun _ => ⟨[], by simp [hst]⟩) (fun h => by simpa [hout] using h)
  | shl n v => cases h; exact .quiet hp hc hr (none_of rfl) hk (fun _ => ⟨[], by simp [hst]⟩) (fun h => by simpa [hout] using h)
  | or n m => cases h; exact .quiet hp hc hr (none_of rfl) hk (fun _ => ⟨[], by simp [hst]⟩) (fun h => by simpa [hout] using h)
  | fail e => cases h; exact .quiet hp hc hr (none_of rfl) hk (fun _ => ⟨[], by simp [hst]⟩) (fun h => by simpa [hout] using h)
  | halt => cases h; exact .quiet hp hc hr (none_of rfl) hk (fun _ => ⟨[], by simp [hst]⟩) (fun h => by simpa [hout] using h)

/-- The host's step as a kind of step, `u` being the state it acts on. -/
theorem hostStep_kind {s u t : State} (h : hostStep u = .next t)
    (hp : u.pcmd = s.pcmd) (hk : u.taken = s.taken) (hst : u.stream = s.stream) (hh : u.host = s.host)
    (hc : s.consumed? = none) (hr : s.resetNext = false)
    (hw : s.nextWrite? = s.host.fetch.bind (HostStmt.write? s.host.vars)) : StepKind s t := by
  unfold hostStep at h
  split at h
  · rename_i hf
    cases h
    rw [hh] at hf
    exact .quiet hp hc hr (by simp [State.cmdWrite?, hw, hf]) hk (fun _ => ⟨[], by simp [hst]⟩)
      (fun h => by simpa [hh] using h)
  · rename_i st hf
    rw [hh] at hf
    exact hostExec_kind h hp hk hst (by simp [hh]) (by simp [hh]) hc hr (by simp [hw, hf])

/-- Everything a step can do. -/
theorem step_kind {s t : State} (h : step s = .next t) : StepKind s t := by
  unfold step at h
  split at h
  · rename_i he
    unfold unlistedStep at h
    have hr : s.resetNext = false := by simp [State.resetNext, he]
    split at h
    · rename_i hy
      exact pcmdStep_kind h rfl rfl rfl rfl (by simp [State.pcmdNext, he, hy]) hr
        (by simp [State.cmdWrite?, State.nextWrite?, State.nextStmt?, he, hy])
    · rename_i hy
      exact hostStep_kind h rfl rfl rfl rfl (by simp [State.consumed?, State.pcmdNext, he, hy]) hr
        (by simp [State.nextWrite?, State.nextStmt?, he, hy])
  · rename_i e es he
    cases e with
    | pcmd =>
      exact pcmdStep_kind h rfl rfl rfl rfl (by simp [State.pcmdNext, he]) (by simp [State.resetNext, he])
        (by simp [State.cmdWrite?, State.nextWrite?, State.nextStmt?, he])
    | host =>
      exact hostStep_kind h rfl rfl rfl rfl (by simp [State.consumed?, State.pcmdNext, he]) (by simp [State.resetNext, he])
        (by simp [State.nextWrite?, State.nextStmt?, he])
    | rst =>
      cases h
      exact .reset rfl (by simp [State.consumed?, State.pcmdNext, he]) (by simp [State.resetNext, he])
        (by simp [State.cmdWrite?, State.nextWrite?, State.nextStmt?, he]) rfl rfl rfl
    | regWrite off data =>
      exact regWrite_kind h rfl rfl rfl rfl (by simp [State.consumed?, State.pcmdNext, he]) (by simp [State.resetNext, he])
        (by simp [State.nextWrite?, he])
    | regRead off =>
      cases h
      exact .quiet rfl (by simp [State.consumed?, State.pcmdNext, he]) (by simp [State.resetNext, he])
        (by simp [State.cmdWrite?, State.nextWrite?, State.nextStmt?, he]) rfl (fun _ => ⟨[], by simp⟩) id
    | take =>
      cases h
      refine takeBeat_kind ?_ ?_ ?_ ?_ (by simp [State.consumed?, State.pcmdNext, he]) (by simp [State.resetNext, he])
        (by simp [State.cmdWrite?, State.nextWrite?, State.nextStmt?, he]) <;>
        by_cases hm : s.pcmd.obuf.v = true <;> simp [State.takeBeat, Pcmd.mValid, hm]
    | present tok =>
      cases h
      exact .quiet rfl (by simp [State.consumed?, State.pcmdNext, he]) (by simp [State.resetNext, he])
        (by simp [State.cmdWrite?, State.nextWrite?, State.nextStmt?, he]) rfl (fun _ => ⟨_, rfl⟩) id
    | newStream ts =>
      cases h
      exact .quiet rfl (by simp [State.consumed?, State.pcmdNext, he]) (by simp [State.resetNext, he])
        (by simp [State.cmdWrite?, State.nextWrite?, State.nextStmt?, he]) rfl
        (fun hn => absurd hn (by simp [State.newStreamNext, he])) id

/-- The host's step at a statement that writes a register. -/
theorem hostStep_of_write {s : State} {st : HostStmt} {off : Byte} {data : Word} (hf : s.host.fetch = some st)
    (hw : st.write? s.host.vars = some (off, data)) : hostStep s = regWrite off data { s with host := s.host.advance } := by
  rw [hostStep_of_fetch hf]
  cases st <;> simp_all [HostStmt.write?, hostExec, HostAgent.advance, HostAgent.goTo]

/-- Where the next step writes a register, it is that write on the state past the step: past the listed step, and for the host's WR past its statement. -/
theorem step_of_nextWrite {s : State} {off : Byte} {data : Word} (h : s.nextWrite? = some (off, data)) :
    step s = regWrite off data { s with events := s.events.tail } ∨
      step s = regWrite off data { s with events := s.events.tail, host := s.host.advance } := by
  cases he : s.events with
  | nil =>
    simp only [State.nextWrite?, State.nextStmt?, he] at h
    split at h
    · simp at h
    · rename_i hn
      obtain ⟨st, hf, hw⟩ := Option.bind_eq_some_iff.1 h
      rw [step_unlisted he, unlistedStep, if_neg hn, hostStep_of_write hf hw, List.tail_nil, ← he]
      exact .inr rfl
  | cons e es =>
    simp only [State.nextWrite?, State.nextStmt?, he] at h
    cases e with
    | regWrite off' data' =>
      cases h
      exact .inl (step_listed he)
    | host =>
      obtain ⟨st, hf, hw⟩ := Option.bind_eq_some_iff.1 h
      exact .inr ((step_listed he).trans (hostStep_of_write (s := { s with events := es }) hf hw))
    | pcmd => cases h
    | rst => cases h
    | regRead off' => cases h
    | take => cases h
    | present t => cases h
    | newStream ts => cases h

end Sys2Proof.Machine
end

