-- ==== Sys2Proof/Laws/Payload.lean ====
section
/-! SUPPORT. The small lemmas of the payload functions of Safety.lean (R65, R147, R154, R156) and of `runSteps`. -/

namespace Sys2Proof.Machine

/-- A step at the front of a run. -/
theorem runSteps_succ {n : Nat} {s t : State} (h : step s = .next t) : runSteps (n + 1) s = runSteps n t := by
  simp only [runSteps, h]

/-- A run cut in two. -/
theorem runSteps_add (a b : Nat) (s : State) : runSteps (a + b) s = (runSteps a s).bind (runSteps b) := by
  induction a generalizing s with
  | zero => simp [runSteps]
  | succ a ih => rw [Nat.add_right_comm]; simp only [runSteps]; cases step s <;> simp [ih]

/-- One more byte in front of a read's value. -/
theorem leValue_append_singleton (l : List Byte) (b : Byte) : leValue (l ++ [b]) = leValue l + b.toNat * 256 ^ l.length := by
  induction l with
  | nil => simp [leValue]
  | cons a l ih => simp only [List.cons_append, leValue, ih, List.length_cons, pow_succ]; ring

/-- A read's value fits its bytes. -/
theorem leValue_lt (l : List Byte) : leValue l < 256 ^ l.length := by
  induction l with
  | nil => simp [leValue]
  | cons a l ih => simp only [leValue, List.length_cons, pow_succ]; have := a.isLt; omega

/-- A byte after whole words forms no word yet. -/
theorem payloadWords_append_even {xs : List Byte} (x : Byte) (h : xs.length % 2 = 0) :
    payloadWords (xs ++ [x]) = payloadWords xs := by
  induction xs using payloadWords.induct with
  | case1 a b rest ih => simp only [List.cons_append, payloadWords]; rw [ih (by simp at h; omega)]
  | case2 a => simp at h
  | case3 => rfl

/-- A byte after an odd one completes a word with it. -/
theorem payloadWords_append_odd {xs : List Byte} (x : Byte) (h : xs.length % 2 = 1) :
    payloadWords (xs ++ [x]) = payloadWords xs ++ [BitVec.ofNat 16 ((xs.getLast?.getD 0).toNat + 256 * x.toNat)] := by
  induction xs using payloadWords.induct with
  | case1 a b rest ih =>
    have hr : rest.length % 2 = 1 := by simp at h; omega
    have hne : rest ≠ [] := by rintro rfl; simp at hr
    simp only [List.cons_append, payloadWords]; rw [ih hr]
    simp only [List.getLast?_cons]
    cases hl : rest.getLast? with
    | none => exact absurd (by simpa using hl) hne
    | some y => simp
  | case2 a => rfl
  | case3 => simp at h

/-- A payload has half as many words as bytes. -/
theorem payloadWords_length (xs : List Byte) : (payloadWords xs).length = xs.length / 2 := by
  induction xs using payloadWords.induct with
  | case1 a b rest ih => simp only [payloadWords, List.length_cons]; omega
  | case2 a => simp [payloadWords]
  | case3 => rfl

/-- One more sample goes to one channel. -/
theorem channelValues_append_singleton (c k : Nat) (l : List Sample) (smp : Sample) (i : Nat) :
    channelValues c k i (l ++ [smp]) = channelValues c k i l ++ (if (i + l.length) % c = k then [smp.value] else []) := by
  induction l generalizing i with
  | nil => simp only [List.nil_append, channelValues]; split <;> simp_all
  | cons a l ih =>
    simp only [List.cons_append, channelValues, ih, List.length_cons, show i + 1 + l.length = i + (l.length + 1) by ring]
    split <;> simp

/-- One more sample is one more beat. -/
theorem sampleBeats_append_singleton (c : Nat) (l : List Sample) (smp : Sample) (i : Nat) :
    sampleBeats c i (l ++ [smp]) =
      sampleBeats c i l ++ [{ chan := BitVec.ofNat 16 ((i + l.length) % c), data := smp.data, wide := smp.wide }] := by
  induction l generalizing i with
  | nil => rfl
  | cons a l ih => simp only [List.cons_append, sampleBeats, ih, List.length_cons, show i + 1 + l.length = i + (l.length + 1) by ring]

/-- The values of a channel as a filter of the numbered samples. -/
theorem channelValues_eq_filter (c k : Nat) (l : List Sample) (i : Nat) :
    channelValues c k i l = ((l.zipIdx i).filter (fun xi => xi.2 % c = k)).map (fun xi => xi.1.value) := by
  induction l generalizing i with
  | nil => rfl
  | cons a l ih => simp only [channelValues, List.zipIdx_cons, ih]; by_cases h : i % c = k <;> simp [h]

/-- The beats as a map of the numbered samples. -/
theorem sampleBeats_eq_map (c : Nat) (l : List Sample) (i : Nat) :
    sampleBeats c i l =
      (l.zipIdx i).map (fun xi => { chan := BitVec.ofNat 16 (xi.2 % c), data := xi.1.data, wide := xi.1.wide }) := by
  induction l generalizing i with
  | nil => rfl
  | cons a l ih => simp only [sampleBeats, List.zipIdx_cons, ih]; simp

end Sys2Proof.Machine
end

