-- ==== Sys2Proof/Laws/PerInstr.lean ====
section
/-! SUPPORT. What holds of every command as syntax, one lemma a command. -/

namespace Sys2Proof.Laws.EncodingShape

/-- The command's word is in format C: RSV is 0, OP is the command's opcode, and the word is well formed (R80, R81). -/
def Statement (i : Instr) : Prop :=
  rsvField (encode i) = 0 ∧ opField (encode i) = opcode i ∧ commandWordWf (encode i) = true

theorem deinterleave : Statement .deinterleave := by unfold Statement; decide

theorem readU16 : Statement .readU16 := by unfold Statement; decide

theorem readU32 : Statement .readU32 := by unfold Statement; decide

end Sys2Proof.Laws.EncodingShape
end

