-- ==== Sys2Proof/Laws/Platform.lean ====
section
/-! SUPPORT. What a step of one instance of a platform is. -/

namespace Sys2Proof.Machine

/-- Instance `k` steps on its own state. -/
theorem Platform.stepInstance_of_some {p : Platform} {k : Nat} {s : State} (h : p.insts[k]? = some s) :
    p.stepInstance k = mapNext (fun s' => { insts := p.insts.set k s' }) (step s) := by
  simp [Platform.stepInstance, h]

/-- A number with no instance. -/
theorem Platform.stepInstance_of_none {p : Platform} {k : Nat} (h : p.insts[k]? = none) : p.stepInstance k = .next p := by
  simp [Platform.stepInstance, h]

end Sys2Proof.Machine
end

