-- ==== Sys2Proof/Tests/Slice0.lean ====
section
/-! SUPPORT. The tests: ill-formed terms refused, words decoded as the spec writes them, single steps of 95_test_vectors.md, and for every statement with
hypotheses a state and operands that meet them. -/

namespace Sys2Proof.Tests

open Sys2Proof.Machine

/-! ### Well-formedness refuses -/

theorem test_wf_reserved_bits : commandWordWf 0x00000009 = false ∧ commandWordWf 0x80000002 = false := by decide
theorem test_wf_unassigned_op : [0, 4, 5, 6, 7].all (fun w => !commandWordWf w) = true := by decide
theorem test_wf_write_unmapped : hostStmtWf 1 (.wrImm 0x20 0) = false ∧ hostStmtWf 1 (.wrVar 0x06 .h0) = false := by decide
theorem test_wf_read_unmapped : hostStmtWf 1 (.rd .h0 0x02) = false := by decide
theorem test_wf_label_outside :
    hostStmtWf 2 (.beq .h0 0 2) = false ∧ hostStmtWf 2 (.bne .h0 0 2) = false ∧ hostStmtWf 2 (.jmp 2) = false := by decide
theorem test_wf_fail_not_a_source_error : hostStmtWf 1 (.fail .zeroChannels) = false ∧ hostStmtWf 1 (.fail .none) = false := by
  decide
theorem test_wf_program : hostProgramWf [.push 0, .jmp 2] = false ∧ hostProgramWf [.jmp 1, .halt] = true := by decide

/-! ### Words written out from 30_encoding.md R80 and R81: RSV in bits 31:3, OP in bits 2:0 -/

theorem test_decode_deinterleave : decode 0b00000000000000000000000000000001 = .command .deinterleave := by decide
theorem test_decode_readU16 : decode 0b00000000000000000000000000000010 = .command .readU16 := by decide
theorem test_decode_readU32 : decode 0b00000000000000000000000000000011 = .command .readU32 := by decide
theorem test_decode_unassigned : decode 0b00000000000000000000000000000100 = .illegal .unassignedOpcode := by decide
theorem test_decode_reserved : decode 0b00000000000000000000000000001001 = .illegal .reservedBitsSet := by decide
theorem test_decode_table_word :
    decodeTableWord 32 1 = some .deinterleave ∧ decodeTableWord 32 2 = some .readU16 ∧ decodeTableWord 32 3 = some .readU32 ∧
      decodeTableWord 32 0x80000002 = none := by decide

/-! ### Small states -/

/-- A state with the given PCMD, presented tokens and steps to come; the rest as at reset. -/
def place (p : Pcmd) (ts : List RawToken) (es : List Event) : State :=
  { State.reset with pcmd := p, stream := ts, events := es }

/-- PCMD at reset but for CONFIG. -/
def configured (v : Word) : Pcmd := { Pcmd.reset with config := v }

/-- A READ_U16 that has gathered `nb` bytes with value `acc`. -/
def reading16 (nb : Nat) (acc : Word) : Pcmd :=
  { Pcmd.reset with cmd := 2, op := 2, mode := .rd, need := .two, nb := nb, acc := acc, byteCount := BitVec.ofNat 32 nb }

/-- A READ_U32 that has gathered `nb` bytes with value `acc`. -/
def reading32 (nb : Nat) (acc : Word) : Pcmd :=
  { Pcmd.reset with cmd := 3, op := 3, mode := .rd, need := .four, nb := nb, acc := acc, byteCount := BitVec.ofNat 32 nb }

/-- A DEINTERLEAVE of `c` channels of `b`-bit samples that has consumed nothing. -/
def decoding (b c : Half) : Pcmd :=
  { configured (b ++ c) with
    cmd := 1, op := 1, lconfig := b ++ c, mode := .deint,
    res := { w := ResWidth.ofBits b, n := c, seqs := List.replicate c.toNat [] } }

/-- D8-2 after its first byte, with the beat still in OBUF: two channels here, byte 0x01. -/
def afterOneByte : Pcmd :=
  { decoding 8 2 with
    byteCount := 1, cur := 1, res := { w := .bits8, n := 2, seqs := [[1], []] }, obuf := { v := true, k := 0, d := 1, w := false } }

/-- The same with the beat taken. -/
def afterOneBeat : Pcmd := { afterOneByte with obuf := { v := false, k := 0, d := 1, w := false } }

/-- D16-3 after its three bytes: one channel, one word done, the byte 0x03 pending. -/
def pendingByte : Pcmd :=
  { decoding 16 1 with
    byteCount := 3, pend := true, low := 3, res := { w := .bits16, n := 1, seqs := [[0x0201]] },
    obuf := { v := false, k := 0, d := 0x0201, w := true } }

/-- SB at its end: a valid result of two channels. -/
def finishedSB : Pcmd :=
  { decoding 8 2 with
    mode := .idle, done := true, byteCount := 4, res := { w := .bits8, n := 2, seqs := [[1, 3], [2, 4]] },
    obuf := { v := false, k := 1, d := 4, w := false } }

/-- A host that stands at one statement. -/
def standingAt (st : HostStmt) (p : Pcmd) : State :=
  { place p [] [.host] with host := { HostAgent.start with prog := [st] } }

/-! ### Single steps, expected values from 95_test_vectors.md -/

/-- X1: the second byte of READ_U16. -/
theorem test_readU16_last_byte :
    (nextState? (exec .readU16 (place (reading16 1 0x34) [0x012] []))).map
      (fun t => (t.pcmd.result, t.pcmd.status, t.pcmd.byteCount)) = some (0x00001234, 0x00000202, 2) := by decide

/-- U16-11: END after one byte; RESULT stays, the END is consumed. -/
theorem test_readU16_truncated :
    (nextState? (exec .readU16 (place { reading16 1 0x01 with result := 0x12345678 } [0x100] []))).map
      (fun t => (t.pcmd.result, t.pcmd.status, t.stream)) = some (0x12345678, 0x00000212, []) := by decide

/-- X2: ACC becomes 0x00345678 on the third byte, and RESULT waits. -/
theorem test_readU32_third_byte :
    (nextState? (exec .readU32 (place (reading32 2 0x5678) [0x034] []))).map
      (fun t => (t.pcmd.acc, t.pcmd.result, t.pcmd.status)) = some (0x00345678, 0, 0x00000301) := by decide

/-- U32-3: only the top bit set. -/
theorem test_readU32_top_bit :
    (nextState? (exec .readU32 (place (reading32 3 0) [0x080] []))).map
      (fun t => (t.pcmd.result, t.pcmd.status)) = some (0x80000000, 0x00000302) := by decide

/-- D8-1: the first byte, 0x80, of three channels. -/
theorem test_deinterleave_negative_byte :
    (nextState? (exec .deinterleave (place (decoding 8 3) [0x080] []))).map
      (fun t => (t.pcmd.res.seqs, t.pcmd.obuf, t.pcmd.cursor)) =
    some ([[-128], [], []], { v := true, k := 0, d := 0xFF80, w := false }, 0x00000001) := by decide

/-- D16-3: END with a byte pending. -/
theorem test_deinterleave_pending_end :
    (nextState? (exec .deinterleave (place pendingByte [0x100] []))).map
      (fun t => (t.pcmd.status, t.pcmd.cursor)) = some (0x00000142, 0x03010000) := by decide

/-- IL-6: STATUS.OP is 1 and RVALID 0. -/
theorem test_illegal_word :
    (nextState? (step (place Pcmd.reset [0x001] [.regWrite 0x00 0x00000009]))).map
      (fun t => (t.pcmd.status, t.pcmd.cmd, t.stream)) = some (0x00000162, 0x00000009, [0x001]) := by decide

/-- D16-1: the TAKE value of the first beat has bit 16 set. -/
theorem test_take_value :
    (nextState? (step (standingAt (.take .h1) { decoding 16 2 with obuf := { v := true, k := 0, d := 0x0201, w := true } }))).map
      (fun t => (t.host.vars.h1, t.host.vars.h7)) = some (0x00010201, 0) := by decide

/-! ### The invariant holds somewhere: at reset, inside each kind of command, and at a valid result -/

theorem reset_inv : State.reset.Inv := ⟨⟨by decide, by decide, by decide, by decide, by decide, by decide, by decide⟩, by decide⟩

theorem reading_inv : (reading16 1 0x34).Inv := ⟨by decide, by decide, by decide, by decide, by decide, by decide, by decide⟩

theorem decoding_inv : afterOneByte.Inv := ⟨by decide, by decide, by decide, by decide, by decide, by decide, by decide⟩

theorem taken_inv : afterOneBeat.Inv := ⟨by decide, by decide, by decide, by decide, by decide, by decide, by decide⟩

theorem pending_inv : pendingByte.Inv := ⟨by decide, by decide, by decide, by decide, by decide, by decide, by decide⟩

theorem finished_inv : finishedSB.Inv := ⟨by decide, by decide, by decide, by decide, by decide, by decide, by decide⟩

/-! ### Witnesses: one named theorem for every statement with hypotheses -/

theorem witness_DecodeEncodeAgree :
    Instr.wf .readU32 = true ∧ decode 3 = .command .readU32 ∧ commandWordWf 1 = true := by decide

/-- OP = 7, and RSV = 1 with an assigned OP. -/
theorem witness_IllegalWordFinishesAtOnce :
    (let s := place Pcmd.reset [0x001] [.regWrite 0x00 7]
     s.events = [.regWrite 0x00 7] ∧ s.pcmd.mode = .idle ∧ (7 : Word).toNat % 8 ∈ [0, 4, 5, 6, 7]) ∧
    (let s := place Pcmd.reset [0x001] [.regWrite 0x00 9]
     s.events = [.regWrite 0x00 9] ∧ s.pcmd.mode = .idle ∧ (9 : Word).toNat / 8 ≠ 0) := by decide

theorem witness_StepRunsDecodedCommand :
    let s := place (configured 0x00080001) [] [.regWrite 0x00 1, .pcmd]
    s.events = [.regWrite 0x00 1, .pcmd] ∧ s.pcmd.mode = .idle ∧ decode 1 = .command .deinterleave := by decide

/-- Both forms of WR. -/
theorem witness_HostCommandWriteRunsDecodedCommand :
    (let s := standingAt (.wrImm 0x00 2) Pcmd.reset
     s.events = [.host] ∧ s.host.fetch = some (.wrImm 0x00 2) ∧ (HostStmt.wrImm 0x00 2).write? s.host.vars = some (0x00, 2) ∧
       s.pcmd.mode = .idle ∧ decode 2 = .command .readU16) ∧
    (let s0 := standingAt (.wrVar 0x00 .h3) Pcmd.reset
     let s := { s0 with host := s0.host.setVar .h3 1 }
     s.host.fetch = some (.wrVar 0x00 .h3) ∧ (HostStmt.wrVar 0x00 .h3).write? s.host.vars = some (0x00, 1) ∧
       decode 1 = .command .deinterleave) := by decide

theorem witness_StepRunsRunningCommand :
    (reading16 0 0).running = some .readU16 ∧ (place (reading16 0 0) [] [.pcmd]).events = [.pcmd] ∧
      (let s := place (decoding 8 1) [0x001] []
       s.pcmd.running = some .deinterleave ∧ s.events = [] ∧ s.pcmd.sReady = true ∧ s.stream ≠ []) := by decide

theorem witness_BusyCommandWriteSetsOverrun :
    let s := place (reading32 0 0) [] [.regWrite 0x00 0xFFFFFFFF]
    s.events = [.regWrite 0x00 0xFFFFFFFF] ∧ s.pcmd.mode ≠ .idle := by decide

theorem witness_ReadsAreAccepted : State.reset.pcmd.mode = .idle := by decide

/-- Both widths, the fewest and the most channels. -/
theorem witness_DeinterleaveStarts :
    ((configured 0x00080001).mode = .idle ∧ (configured 0x00080001).config = 8#16 ++ 1#16 ∧ (1 : Half) ≠ 0) ∧
    ((configured 0x0010FFFF).mode = .idle ∧ (configured 0x0010FFFF).config = 16#16 ++ 0xFFFF#16 ∧ (0xFFFF : Half) ≠ 0) := by
  decide

/-- A bit depth of 24 with no channel, and each good depth with none. -/
theorem witness_DeinterleaveStartChecks :
    ((configured 0x00180000).config = 24#16 ++ 0#16 ∧ (24 : Half) ≠ 8 ∧ (24 : Half) ≠ 16) ∧
    (configured 0x00080000).config = 8#16 ++ 0#16 ∧ (configured 0x00100000).config = 16#16 ++ 0#16 ∧
    (configured 0x00100000).mode = .idle := by decide

/-- A byte that is not the last and one that is, for each READ. -/
theorem witness_ReadStepGathersByte :
    (let s := place (reading16 0 0) [rawByte 0xFF] []
     s.pcmd.mode = .rd ∧ s.pcmd.need = .two ∧ s.stream = [rawByte 0xFF] ∧ s.pcmd.nb + 1 < 2 ∧ s.pcmd.acc.toNat < 256 ^ s.pcmd.nb) ∧
    (let s := place (reading32 3 0xFFFFFF) [rawByte 0xFF] []
     s.pcmd.mode = .rd ∧ s.pcmd.need = .four ∧ s.stream = [rawByte 0xFF] ∧ s.pcmd.nb + 1 = 4 ∧
       s.pcmd.acc.toNat < 256 ^ s.pcmd.nb) := by decide

/-- END, ERR and kind 3. -/
theorem witness_ReadFailsOnOtherToken :
    (reading16 1 0x34).mode = .rd ∧ (reading16 1 0x34).running = some .readU16 ∧ (0x100 : RawToken).extractLsb' 8 2 ≠ 0 ∧
      (0x200 : RawToken).extractLsb' 8 2 ≠ 0 ∧ (0x312 : RawToken).extractLsb' 8 2 ≠ 0 := by decide

/-- No token presented to a READ, and a beat in OBUF. -/
theorem witness_CommandHolds :
    ((reading16 1 0x34).running = some .readU16 ∧ (place (reading16 1 0x34) [] [.pcmd]).stream = []) ∧
    ((place afterOneByte [0x002] [.pcmd]).pcmd.running = some .deinterleave ∧ afterOneByte.obuf.v = true) := by decide

/-- The last channel of two, so that the cursor wraps. -/
theorem witness_DeinterleaveByteIsSample :
    let s := place afterOneBeat [rawByte 0x80] []
    s.pcmd.mode = .deint ∧ s.pcmd.lconfig = 8#16 ++ 2#16 ∧ (2 : Half) ≠ 0 ∧ s.pcmd.obuf.v = false ∧ s.stream = [rawByte 0x80] := by
  decide

/-- A first byte and a second one. -/
theorem witness_DeinterleavePairIsSample :
    (let s := place (decoding 16 1) [rawByte 0xAB] []
     s.pcmd.mode = .deint ∧ s.pcmd.lconfig = 16#16 ++ 1#16 ∧ (1 : Half) ≠ 0 ∧ s.pcmd.obuf.v = false ∧ s.pcmd.pend = false) ∧
    (let s := place pendingByte [rawByte 0x04] []
     s.pcmd.mode = .deint ∧ s.pcmd.lconfig = 16#16 ++ 1#16 ∧ s.pcmd.obuf.v = false ∧ s.pcmd.pend = true) := by decide

/-- END on a frame's edge, inside a frame, and inside a word. -/
theorem witness_DeinterleaveEndChecksFrame :
    (0x1FF : RawToken).extractLsb' 8 2 = 1 ∧
    (let s := place (decoding 8 1) [0x1FF] []
     s.pcmd.mode = .deint ∧ s.pcmd.obuf.v = false ∧ s.stream = [0x1FF] ∧ s.pcmd.cur = 0 ∧ s.pcmd.pend = false) ∧
    (let s := place afterOneBeat [0x1FF] []
     s.pcmd.mode = .deint ∧ s.pcmd.obuf.v = false ∧ ¬ (s.pcmd.cur = 0 ∧ s.pcmd.pend = false)) ∧
    (let s := place pendingByte [0x1FF] []
     s.pcmd.mode = .deint ∧ s.pcmd.obuf.v = false ∧ s.pcmd.cur = 0 ∧ ¬ (s.pcmd.cur = 0 ∧ s.pcmd.pend = false)) := by decide

theorem witness_DeinterleaveFailsOnErrToken :
    let s := place (decoding 8 1) [0x200] []
    s.pcmd.mode = .deint ∧ s.pcmd.obuf.v = false ∧ s.stream = [0x200] ∧ (0x200 : RawToken).extractLsb' 8 2 = 2 ∧
      (0x302 : RawToken).extractLsb' 8 2 = 3 := by decide

/-- Acceptance, and a token step. -/
theorem witness_ReadFrame :
    (State.reset.pcmd.mode = .idle ∧ ∃ t, exec .readU16 State.reset = .next t) ∧
    ((reading32 3 0).mode ≠ .idle ∧ ∃ t, exec .readU32 (place (reading32 3 0) [0x001] []) = .next t) :=
  ⟨⟨by decide, _, rfl⟩, by decide, _, rfl⟩

/-- Acceptance, and a token step. -/
theorem witness_DeinterleaveFrame :
    (State.reset.pcmd.mode = .idle ∧ ∃ t, exec .deinterleave State.reset = .next t) ∧
    (afterOneBeat.mode ≠ .idle ∧ ∃ t, exec .deinterleave (place afterOneBeat [0x001] []) = .next t) :=
  ⟨⟨by decide, _, rfl⟩, by decide, _, rfl⟩

theorem witness_OtherChannelsUntouched :
    afterOneBeat.mode = .deint ∧ (∃ t, exec .deinterleave (place afterOneBeat [0x001] []) = .next t) ∧
      0 ≠ afterOneBeat.cur.toNat := ⟨by decide, ⟨_, rfl⟩, by decide⟩

theorem witness_ConfigWriteSparesRunningDeinterleave :
    (place afterOneBeat [] [.regWrite 0x08 0x00100001]).pcmd.mode = .deint ∧
      (place afterOneBeat [] [.regWrite 0x08 0x00100001]).events = [.regWrite 0x08 0x00100001] ∧
      (configured 0x00080001).mode = .idle := by decide

/-- Two instances and a number with none; a step that goes on, one that faults and one that is refused. -/
theorem witness_InstancesShareNothing :
    (let s := place (reading16 1 0x34) [0x012] []
     let p : Platform := { insts := [State.reset, s] }
     p.insts[1]? = some s ∧ (∃ s', step s = .next s') ∧ p.insts[2]? = none ∧ 0 ≠ 1 ∧ ∃ q, p.stepInstance 1 = .next q) ∧
    (∃ r, step (place (decoding 8 0) [0x001] [.pcmd]) = .fault r) ∧
    (∃ r, step (standingAt .failErr { Pcmd.reset with err := 2 }) = .refused r) :=
  ⟨⟨rfl, ⟨_, rfl⟩, rfl, by decide, _, rfl⟩, ⟨_, rfl⟩, _, rfl⟩

/-- The edges: the last register, the first offset after it, and a misaligned one; for writes also a read-only register and the two writable ones. -/
theorem witness_BusErrors :
    (let bad := fun off : Byte => off.toNat % 4 ≠ 0 ∨ off.toNat > 0x1C
     ¬ bad 0x1C ∧ bad 0x20 ∧ bad 0x06) ∧
    (let bad := fun off : Byte => off.toNat % 4 ≠ 0 ∨ off.toNat > 0x1C ∨ off.toNat ∈ [0x04, 0x0C, 0x10, 0x14, 0x18, 0x1C]
     ¬ bad 0x00 ∧ ¬ bad 0x08 ∧ bad 0x04 ∧ bad 0x1C ∧ bad 0x0A ∧ bad 0xFC) ∧
    (place Pcmd.reset [] [.regRead 0x20]).events = [.regRead 0x20] ∧
    (place Pcmd.reset [] [.regWrite 0x04 1]).events = [.regWrite 0x04 1] ∧
    ((place Pcmd.reset [] [.regWrite 0x08 1]).nextWrite? = some (0x08, 1) ∧
      ∃ t, step (place Pcmd.reset [] [.regWrite 0x08 1]) = .next t) ∧
    ((standingAt (.wrImm 0x04 1) Pcmd.reset).nextWrite? = some (0x04, 1) ∧
      ∃ t, step (standingAt (.wrImm 0x04 1) Pcmd.reset) = .next t) :=
  ⟨by decide, by decide, by decide, by decide, ⟨by decide, _, rfl⟩, by decide, _, rfl⟩

/-- A listed write, and both forms of the host's WR. -/
theorem witness_ConfigWriteReadsBack :
    (place Pcmd.reset [] [.regWrite 0x08 0xDEADBEEF]).events = [.regWrite 0x08 0xDEADBEEF] ∧
    (standingAt (.wrImm 0x08 0xDEADBEEF) Pcmd.reset).nextWrite? = some (0x08, 0xDEADBEEF) ∧
    (standingAt (.wrVar 0x08 .h4) Pcmd.reset).nextWrite? = some (0x08, 0) := by decide

theorem witness_BeatTransferClearsObuf :
    ((place afterOneByte [] [.take]).events = [.take] ∧ afterOneByte.obuf.v = true) ∧
    ((place afterOneBeat [] [.take]).events = [.take] ∧ afterOneBeat.obuf.v = false) := by decide

theorem witness_ResetSetsEveryRegister : (place afterOneByte [0x002] [.rst]).events = [.rst] := by decide

/-- A step that takes a token, and one that does not. -/
theorem witness_TokensGoOnlyToRunningCommands :
    ((∃ t, step (place afterOneBeat [0x002] [.pcmd]) = .next t) ∧ (place afterOneBeat [0x002] [.pcmd]).newStreamNext = false) ∧
    ((∃ t, step (place Pcmd.reset [0x002] [.pcmd]) = .next t) ∧ (place Pcmd.reset [0x002] [.pcmd]).newStreamNext = false) :=
  ⟨⟨⟨_, rfl⟩, by decide⟩, ⟨_, rfl⟩, by decide⟩

/-- The host stands at any statement one places. -/
theorem witness_HostStatementEffects (st : HostStmt) :
    (standingAt st Pcmd.reset).events = [.host] ∧ (standingAt st Pcmd.reset).host.fetch = some st := ⟨rfl, rfl⟩

/-- The same, with a beat on offer and without. -/
theorem witness_HostPortStatements :
    (let s := standingAt (.take .h1) afterOneByte
     s.events = [.host] ∧ s.host.fetch = some (.take .h1) ∧ s.pcmd.obuf.v = true) ∧
    (let s := standingAt (.take .h7) afterOneByte
     s.events = [.host] ∧ s.host.fetch = some (.take .h7) ∧ s.pcmd.obuf.v = true) ∧
    (let s := standingAt (.take .h7) afterOneBeat
     s.events = [.host] ∧ s.host.fetch = some (.take .h7) ∧ s.pcmd.obuf.v = false) ∧
    (let s := standingAt (.rd .h0 0x20) Pcmd.reset
     s.events = [.host] ∧ s.host.fetch = some (.rd .h0 0x20)) := by decide

theorem witness_HostOutAppends :
    let s := standingAt (.out .h7 .h1) Pcmd.reset
    s.events = [.host] ∧ s.host.fetch = some (.out .h7 .h1) ∧ OutLists.wf s.host.out = true := by decide

/-- Code 6, the last that is produced; codes 2, 7 and 15, that are not. -/
theorem witness_FailErrNamesStatusError :
    (let s := standingAt .failErr { Pcmd.reset with done := true, err := 6 }
     s.events = [.host] ∧ s.host.fetch = some .failErr ∧ s.pcmd.err = ErrName.illegalCommand.code ∧
       ErrName.illegalCommand ≠ .invalidFormat) ∧
    (let s := standingAt .failErr { Pcmd.reset with done := true, err := 2 }
     s.events = [.host] ∧ s.host.fetch = some .failErr ∧ s.pcmd.err = 2) ∧
    (let s := standingAt .failErr { Pcmd.reset with done := true, err := 7 }
     s.events = [.host] ∧ s.host.fetch = some .failErr ∧ 7 ≤ s.pcmd.err.toNat) := by decide

theorem witness_StepKeepsInvariant :
    (place afterOneByte [0x002] [.take]).Inv ∧ ∃ t, step (place afterOneByte [0x002] [.take]) = .next t :=
  ⟨⟨decoding_inv, by decide⟩, _, rfl⟩

theorem witness_InvariantStatesNeverStop : (place pendingByte [0x100] []).Inv := ⟨pending_inv, by decide⟩

/-- A fault and a refusal, in states that no run reaches. -/
theorem witness_OnlyTheseStatesStop :
    (∃ r, step (place (decoding 8 0) [0x001] [.pcmd]) = .fault r) ∧
    (∃ r, step (standingAt .failErr { Pcmd.reset with err := 2 }) = .refused r) := ⟨⟨_, rfl⟩, _, rfl⟩

/-- SB before its END: four bytes decoded, every beat taken. -/
def beforeEndSB : Pcmd := { finishedSB with mode := .deint, done := false }

theorem beforeEnd_inv : beforeEndSB.Inv := ⟨by decide, by decide, by decide, by decide, by decide, by decide, by decide⟩

/-- END makes SB's two channels a valid result. -/
theorem witness_ValidResultIsBalanced :
    let s := place beforeEndSB [0x100] [.pcmd]
    s.Inv ∧ ∃ t, step s = .next t ∧ (t.pcmd.busRead 0x04).rdata.getLsbD 3 = true ∧ 0 < t.pcmd.res.n.toNat ∧
      1 < t.pcmd.res.n.toNat :=
  ⟨⟨beforeEnd_inv, by decide⟩, _, rfl, by decide, by decide, by decide⟩

theorem witness_DoneMeansDrained :
    (place finishedSB [] []).Inv ∧ (finishedSB.busRead 0x04).rdata.getLsbD 1 = true := ⟨⟨finished_inv, by decide⟩, by decide⟩

/-- A READ that finishes and changes RESULT. -/
theorem witness_OnlySuccessfulReadsWriteResult :
    (place (reading16 1 0x34) [0x012] [.pcmd]).Inv ∧
      ∃ t, step (place (reading16 1 0x34) [0x012] [.pcmd]) = .next t ∧ t.pcmd.result ≠ (reading16 1 0x34).result :=
  ⟨⟨reading_inv, by decide⟩, _, rfl, by decide⟩

/-- The acceptance of a DEINTERLEAVE. -/
theorem witness_OnlyDeinterleaveAcceptanceWritesLconfig :
    let s := place (configured 0x00080001) [] [.regWrite 0x00 1]
    s.pcmd.mode = .idle ∧ s.cmdWrite? = some 0x00000001 ∧ ∃ t, step s = .next t ∧ t.pcmd.lconfig ≠ s.pcmd.lconfig :=
  ⟨by decide, by decide, _, rfl, by decide⟩

/-- An accepted word that changes CMD. -/
theorem witness_CmdHoldsLastAcceptedWord :
    let s := place Pcmd.reset [] [.regWrite 0x00 0xFFFFFFFF]
    s.pcmd.mode = .idle ∧ s.cmdWrite? = some 0xFFFFFFFF ∧ ∃ t, step s = .next t ∧ t.pcmd.cmd ≠ s.pcmd.cmd :=
  ⟨by decide, by decide, _, rfl, by decide⟩

/-- After SB, a write of CONFIG. -/
theorem witness_OutcomeStaysUntilNextCommand :
    let s := place finishedSB [] [.regWrite 0x08 0]
    s.pcmd.mode = .idle ∧ s.resetNext = false ∧ s.cmdWrite? = none ∧ ∃ t, step s = .next t :=
  ⟨by decide, by decide, by decide, _, rfl⟩

/-- A READ that fails. -/
theorem witness_OnlyKnownErrorCodesWritten :
    let s := place (reading16 1 0x34) [0x100] [.pcmd]
    ∃ t, step s = .next t ∧ t.pcmd.err ≠ s.pcmd.err := ⟨_, rfl, by decide⟩

/-- A host that presents a token while a READ runs. -/
theorem witness_DutifulHostNeverOverruns :
    let s := place (reading16 1 0x34) [] [.present 0x012]
    s.DutyKept ∧ s.pcmd.busy = true ∧ s.pcmd.ovr = false ∧ ∃ t, step s = .next t :=
  ⟨by decide, by decide, by decide, _, rfl⟩

/-- Each check in turn: busy, an illegal word, a bad bit depth, no channel, a READ. -/
theorem witness_CommandChecksInOrder :
    (let s := place (reading16 0 0) [] [.regWrite 0x00 0]
     (∃ t, step s = .next t) ∧ s.cmdWrite? = some 0 ∧ s.pcmd.mode ≠ .idle) ∧
    (let s := place Pcmd.reset [] [.regWrite 0x00 4]
     (∃ t, step s = .next t) ∧ s.cmdWrite? = some 4 ∧ s.pcmd.mode = .idle) ∧
    (let s := place (configured 0x00180000) [] [.regWrite 0x00 1]
     (∃ t, step s = .next t) ∧ s.cmdWrite? = some 1 ∧ bpsField s.pcmd.config ≠ 8 ∧ bpsField s.pcmd.config ≠ 16) ∧
    (let s := place (configured 0x00100000) [] [.regWrite 0x00 1]
     (∃ t, step s = .next t) ∧ s.cmdWrite? = some 1 ∧ bpsField s.pcmd.config = 16 ∧ chField s.pcmd.config = 0) ∧
    (let s := place Pcmd.reset [] [.regWrite 0x00 3]
     (∃ t, step s = .next t) ∧ s.cmdWrite? = some 3 ∧ s.pcmd.mode = .idle) :=
  ⟨⟨⟨_, rfl⟩, by decide⟩, ⟨⟨_, rfl⟩, by decide⟩, ⟨⟨_, rfl⟩, by decide⟩, ⟨⟨_, rfl⟩, by decide⟩, ⟨_, rfl⟩, by decide⟩

/-- X1, U16-3 and U16-10: enough bytes, an END too early, and no further token. -/
theorem witness_ReadSummary :
    (let s := place Pcmd.reset [0x034, 0x012] [.regWrite 0x00 2]
     s.pcmd.mode = .idle ∧ s.events = [.regWrite 0x00 (encode .readU16)] ∧ s.stream = [0x34, 0x12].map rawByte ++ []) ∧
    (let s := place Pcmd.reset [0x034, 0x100] [.regWrite 0x00 2]
     s.stream = [0x34].map rawByte ++ [0x100] ∧ (0x100 : RawToken).extractLsb' 8 2 ≠ 0) ∧
    (let s := place Pcmd.reset [0x034] [.regWrite 0x00 2]
     s.stream = [0x34].map rawByte ++ [] ∧ s.host.fetch = none) := by decide

theorem witness_DeinterleaveBeginsDecode :
    (place (configured 0x00100003) [] []).Inv ∧ (configured 0x00100003).mode = .idle ∧ (3 : Half) ≠ 0 ∧
      (configured 0x00100003).config = BitVec.ofNat 16 ResWidth.bits16.bits ++ 3#16 :=
  ⟨⟨⟨by decide, by decide, by decide, by decide, by decide, by decide, by decide⟩, by decide⟩, by decide, by decide, by decide⟩

/-- One byte decoded, its beat taken, and `tok` presented. -/
def following (tok : RawToken) : State :=
  { place afterOneBeat [tok] [.pcmd] with taken := [{ chan := 0, data := 1, wide := false }] }

theorem following_decoding (tok : RawToken) : (following tok).Decoding .bits8 2 [] [0x01] :=
  ⟨rfl, rfl, rfl, rfl, (by decide : afterOneBeat.HasDecoded .bits8 2 [0x01]), rfl⟩

/-- Each kind of token; a reset, and a beat transfer, while the first beat is in OBUF. -/
theorem witness_DecodeFollowsTheSource :
    ((following 0x002).consumed? = some 0x002 ∧ ∃ t, step (following 0x002) = .next t) ∧
    ((following 0x100).consumed? = some 0x100 ∧ ∃ t, step (following 0x100) = .next t) ∧
    ((following 0x200).consumed? = some 0x200 ∧ ∃ t, step (following 0x200) = .next t) ∧
    ((following 0x302).consumed? = some 0x302 ∧ ∃ t, step (following 0x302) = .next t) ∧
    (let s := place afterOneByte [] [.rst]
     s.Decoding .bits8 2 [] [0x01] ∧ s.consumed? = none ∧ s.resetNext = true) ∧
    (let s := place afterOneByte [] [.take]
     s.Decoding .bits8 2 [] [0x01] ∧ s.consumed? = none ∧ s.resetNext = false) :=
  ⟨⟨by decide, _, rfl⟩, ⟨by decide, _, rfl⟩, ⟨by decide, _, rfl⟩, ⟨by decide, _, rfl⟩,
   ⟨⟨by decide, by decide, by decide, by decide, by decide, by decide⟩, by decide, by decide⟩,
   ⟨by decide, by decide, by decide, by decide, by decide, by decide⟩, by decide, by decide⟩

/-- SC: three bytes, two channels. -/
theorem witness_Deinterleave8Summary :
    let s := place (configured 0x00080002) [0x001, 0x002, 0x003, 0x100] (.regWrite 0x00 1 :: promptHost 3)
    s.pcmd.mode = .idle ∧ s.pcmd.obuf.v = false ∧ s.pcmd.config = 8#16 ++ 2#16 ∧ (2 : Half) ≠ 0 ∧
      (0x100 : RawToken).extractLsb' 8 2 = 1 ∧ s.stream = [0x01, 0x02, 0x03].map rawByte ++ 0x100 :: [] ∧
      s.events = .regWrite 0x00 0x00000001 :: promptHost [0x01, 0x02, 0x03].length := by decide

/-- D16-3: three bytes, one channel. -/
theorem witness_Deinterleave16Summary :
    let s := place (configured 0x00100001) [0x001, 0x002, 0x003, 0x100] (.regWrite 0x00 1 :: promptHost 3)
    s.pcmd.mode = .idle ∧ s.pcmd.obuf.v = false ∧ s.pcmd.config = 16#16 ++ 1#16 ∧ (1 : Half) ≠ 0 ∧
      (0x100 : RawToken).extractLsb' 8 2 = 1 ∧ s.stream = [0x01, 0x02, 0x03].map rawByte ++ 0x100 :: [] ∧
      s.events = .regWrite 0x00 0x00000001 :: promptHost [0x01, 0x02, 0x03].length := by decide

/-- END after one byte of a frame of two, and END after no byte. -/
theorem witness_FrameMultipleLaw :
    ((following 0x100).Decoding .bits8 2 [] [0x01] ∧ (following 0x100).consumed? = some 0x100 ∧
      (∃ t, step (following 0x100) = .next t) ∧ [(0x01 : Byte)].length % ((2 : Half).toNat * (ResWidth.bits8.bits / 8)) ≠ 0) ∧
    (let s := place (decoding 16 3) [0x100] [.pcmd]
     s.Decoding .bits16 3 [] [] ∧ s.consumed? = some 0x100 ∧ (∃ t, step s = .next t) ∧
       ([] : List Byte).length % ((3 : Half).toNat * (ResWidth.bits16.bits / 8)) = 0) :=
  ⟨⟨following_decoding 0x100, by decide, ⟨_, rfl⟩, by decide⟩,
   ⟨by decide, by decide, by decide, by decide, by decide, by decide⟩, by decide, ⟨_, rfl⟩, by decide⟩

end Sys2Proof.Tests
end

section
/-! PROOF. PCMD's own step, listed or not, is one step of the command that runs (R14, R62; log 2). -/

namespace Sys2Proof.Machine

/-- PCMD's own step with a command running (R14). -/
theorem pcmdStep_running {s : State} {i : Instr} (h : s.pcmd.running = some i) : pcmdStep s = exec i s := by
  simp [pcmdStep, h]

theorem State.tokenEnabled_iff {s : State} : s.tokenEnabled = true ↔ s.pcmd.sReady = true ∧ s.stream ≠ [] := by
  simp [State.tokenEnabled]

/-- Where PCMD can consume a token, the unlisted step is its own and not the host's (log 2). -/
theorem unlistedStep_tokenEnabled {s : State} (h : s.tokenEnabled = true) : unlistedStep s = pcmdStep s :=
  if_pos h

/-- Settles O7: a listed step of PCMD, and an unlisted one where a token can be consumed, are both `pcmdStep`, which runs the running command. -/
theorem stepRunsRunningCommand : Obligations.StepRunsRunningCommand := by
  intro s i hi
  constructor
  · intro es he
    rw [step_listed he]
    exact pcmdStep_running hi
  · intro he hready hstream
    have henabled : s.tokenEnabled = true := State.tokenEnabled_iff.2 ⟨hready, hstream⟩
    rw [step_unlisted he, unlistedStep_tokenEnabled henabled, pcmdStep_running hi]

end Sys2Proof.Machine
end

section
/-! PROOF. What a command's own step does, said once for all three commands (R14, R184; log 1), and the words that decode. -/

namespace Sys2Proof.Machine

@[simp] theorem opField_encode (i : Instr) : opField (encode i) = opcode i := by
  cases i <;> decide

/-- A word that decodes to a command is that command's word (R81, R82). -/
theorem eq_encode_of_decode {w : Word} {i : Instr} (h : decode w = .command i) : w = encode i := by
  have hw : ∀ j : Instr, rsvField w = 0 → opField w = opcode j → w = encode j := by
    intro j hr ho
    have hr' := toNat_rsvField w
    have ho' := toNat_opField w
    rw [hr] at hr'
    rw [ho] at ho'
    apply BitVec.eq_of_toNat_eq
    cases j <;> simp [encode, opcode] at ho' hr' ⊢ <;> omega
  unfold decode at h
  split at h
  · cases h
  · rename_i hr
    have hr : rsvField w = 0 := by simpa using hr
    split at h
    · cases h; exact hw _ hr ‹_›
    · split at h
      · cases h; exact hw _ hr ‹_›
      · split at h
        · cases h; exact hw _ hr ‹_›
        · cases h

/-- Everything one step of command `i` can do: its acceptance, a hold, a token consumed, or its write dropped. -/
theorem exec_cases {i : Instr} {s t : State} (h : exec i s = .next t) :
    (s.pcmd.mode = .idle ∧ t = { s with pcmd := startOf i (s.pcmd.acceptWord (encode i)) }) ∨
    (s.pcmd.running = some i ∧ t = s) ∨
    (s.pcmd.running = some i ∧ s.pcmd.sReady = true ∧ ∃ tok ts p, s.stream = tok :: ts ∧
      tokenOf i (Token.ofRaw tok) (s.pcmd.countToken (Token.ofRaw tok)) = .next p ∧
      t = { s with pcmd := p, stream := ts }) ∨
    (∃ j, s.pcmd.running = some j ∧ j ≠ i ∧ t = { s with pcmd := s.pcmd.overrun }) := by
  cases hr : s.pcmd.running with
  | none =>
    have hm := Pcmd.running_eq_none.1 hr
    rw [exec_idle hm] at h
    cases h
    exact .inl ⟨hm, rfl⟩
  | some j =>
    by_cases hji : j = i
    · subst hji
      rw [exec_running hr] at h
      cases hy : s.pcmd.sReady with
      | false =>
        rw [consume_hold (.inl hy)] at h
        cases h
        exact .inr (.inl ⟨rfl, rfl⟩)
      | true =>
        cases hs : s.stream with
        | nil =>
          rw [consume_hold (.inr hs)] at h
          cases h
          exact .inr (.inl ⟨rfl, rfl⟩)
        | cons tok ts =>
          rw [consume_take hy hs, mapNext_eq_next] at h
          obtain ⟨p, hp, rfl⟩ := h
          exact .inr (.inr (.inl ⟨rfl, rfl, tok, ts, p, rfl, hp, rfl⟩))
    · rw [exec_other hr hji] at h
      cases h
      exact .inr (.inr (.inr ⟨j, rfl, hji, rfl⟩))

end Sys2Proof.Machine
end

section
/-! PROOF. The invariant's parts: what they say of the command that runs, and how the result store keeps its shape and balance under an append
(R39, R147). -/

namespace Sys2Proof.Machine

/-! ### The result store -/

/-- A sample that goes to the cursor's channel keeps the rotation, the cursor moving on modulo the channel count (R146, R147). -/
theorem ResStore.BalancedAt.append {r : ResStore} {cur : Half} (v : Int) (h : r.BalancedAt cur.toNat)
    (hl : r.seqs.length = r.n.toNat) (hc : cur.toNat < r.n.toNat) :
    (r.append cur v).BalancedAt ((cur.toNat + 1) % r.n.toNat) := by
  have grown : ∀ j, ((r.append cur v).chan j).length = (r.chan j).length + (if j = cur.toNat then 1 else 0) := by
    intro j
    by_cases hj : j = cur.toNat
    · subst hj
      simp [ResStore.chan_append_self (hl ▸ hc)]
    · rw [ResStore.chan_append_other hj, if_neg hj, Nat.add_zero]
  intro k hk
  rw [ResStore.append_n] at hk ⊢
  have hbal := h k hk
  rw [grown, grown]
  by_cases hlast : cur.toNat + 1 = r.n.toNat
  · rw [hlast, Nat.mod_self]
    split_ifs at hbal ⊢ <;> omega
  · rw [Nat.mod_eq_of_lt (by omega)]
    split_ifs at hbal ⊢ <;> omega

/-- A value of the store's width keeps its shape (R39). -/
theorem ResStore.ShapeInv.append {r : ResStore} {k : Half} {v : Int} (h : r.ShapeInv) (hv : r.w.holds v = true) :
    (r.append k v).ShapeInv := by
  obtain ⟨hl, hs⟩ := h
  refine ⟨by simpa using hl, ?_⟩
  rw [List.all_eq_true] at hs ⊢
  intro seq hmem
  obtain ⟨j, hj, rfl⟩ := List.getElem_of_mem hmem
  have hj : j < r.seqs.length := by simpa using hj
  have hold := hs r.seqs[j] (List.getElem_mem _)
  simp only [ResStore.append_seqs, ResStore.append_w, List.getElem_modify]
  split
  · simp [hold, hv]
  · exact hold

theorem ResStore.shapeInv_emptied (r : ResStore) : r.emptied.ShapeInv := ⟨rfl, rfl⟩

theorem ResStore.shapeInv_start (b c : Half) : (ResStore.start b c).ShapeInv :=
  ⟨by simp, by simp⟩

theorem ResStore.balancedAt_start (b c : Half) : (ResStore.start b c).BalancedAt 0 := by
  intro k hk
  have hchan : ∀ j, (ResStore.start b c).chan j = [] := by
    intro j
    simp only [ResStore.chan, ResStore.start_seqs, List.getElem?_replicate]
    split <;> rfl
  simp [hchan]

/-- Channels in balance at 0 all have one length (R41). -/
theorem ResStore.BalancedAt.length_eq {r : ResStore} (h : r.BalancedAt 0) {j k : Nat} (hj : j < r.n.toNat)
    (hk : k < r.n.toNat) : (r.chan j).length = (r.chan k).length :=
  (h j hj).trans (h k hk).symm

/-! ### The command that runs -/

theorem Pcmd.StatusInv.cmd_of_running {p : Pcmd} {i : Instr} (h : p.StatusInv) (hr : p.running = some i) :
    p.cmd = encode i := by
  obtain ⟨-, -, -, -, hcmd⟩ := h
  simpa [hr] using hcmd

/-- OP is the running command's opcode (R81). -/
theorem Pcmd.StatusInv.op_of_running {p : Pcmd} {i : Instr} (h : p.StatusInv) (hr : p.running = some i) :
    p.op = opcode i := by
  have hcmd := h.cmd_of_running hr
  obtain ⟨-, -, -, hop, -⟩ := h
  rw [hop, hcmd, opField_encode]

theorem Pcmd.Inv.op_of_running {p : Pcmd} {i : Instr} (h : p.Inv) (hr : p.running = some i) : p.op = opcode i := by
  obtain ⟨hstatus, -⟩ := h
  exact hstatus.op_of_running hr

/-- DONE is 0 while a command runs (R26). -/
theorem Pcmd.StatusInv.not_done {p : Pcmd} (h : p.StatusInv) (hm : p.mode ≠ .idle) : p.done = false :=
  h.1 (Pcmd.busy_eq_true.2 hm)

/-- OBUF is empty unless a DEINTERLEAVE runs (R71, R148). -/
theorem Pcmd.ObufInv.empty {p : Pcmd} (h : p.ObufInv) (hm : p.mode ≠ .deint) : p.obuf.v = false := by
  cases hv : p.obuf.v with
  | false => rfl
  | true => exact absurd (h hv).1 hm

/-- RVALID as its three conditions (R27). -/
theorem Pcmd.rvalid_eq_true {p : Pcmd} : p.rvalid = true ↔ p.done = true ∧ p.err = 0 ∧ p.op = 1 := by
  simp [Pcmd.rvalid, and_assoc]

theorem Pcmd.Inv.obuf_empty {p : Pcmd} (h : p.Inv) (hm : p.mode ≠ .deint) : p.obuf.v = false := by
  obtain ⟨-, -, -, -, -, hobuf, -⟩ := h
  exact hobuf.empty hm

/-- No result is valid before DONE (R27). -/
theorem Pcmd.resultInv_of_not_done {p : Pcmd} (h : p.done = false) : p.ResultInv :=
  fun hr => absurd (Pcmd.rvalid_eq_true.1 hr).1 (by simp [h])

/-- A failed command leaves no valid result (R27). -/
theorem Pcmd.resultInv_of_err {p : Pcmd} (h : p.err ≠ 0) : p.ResultInv :=
  fun hr => absurd (Pcmd.rvalid_eq_true.1 hr).2.1 h

/-- A READ leaves no valid result (R27). -/
theorem Pcmd.resultInv_of_op {p : Pcmd} (h : p.op ≠ 1) : p.ResultInv :=
  fun hr => absurd (Pcmd.rvalid_eq_true.1 hr).2.2 h

end Sys2Proof.Machine
end

section
/-! PROOF. Each operation of PCMD keeps PCMD's invariant. -/

namespace Sys2Proof.Machine

/-! ### Accepting, finishing, dropping -/

theorem Pcmd.inv_reset : Pcmd.reset.Inv :=
  ⟨by decide, by decide, by decide, by decide, by decide, by decide, by decide⟩

/-- The invariant says nothing of CONFIG, which any master may write at any time (R24, R28). -/
theorem Pcmd.Inv.setConfig {p : Pcmd} (h : p.Inv) (v : Word) : ({ p with config := v } : Pcmd).Inv := h

/-- The invariant says nothing of OVR (R185). -/
theorem Pcmd.Inv.overrun {p : Pcmd} (h : p.Inv) : p.overrun.Inv := h

/-- An empty OBUF meets the invariant in every mode (R66). -/
theorem Pcmd.Inv.clearObuf {p : Pcmd} (h : p.Inv) : ({ p with obuf := { p.obuf with v := false } } : Pcmd).Inv := by
  obtain ⟨hstatus, hread, hcursor, hshape, hdeint, -, hresult⟩ := h
  exact ⟨hstatus, hread, hcursor, hshape, hdeint, nofun, hresult⟩

/-- The acceptance of any word at IDLE (R184). -/
theorem Pcmd.Inv.acceptWord {p : Pcmd} (h : p.Inv) (hm : p.mode = .idle) (w : Word) : (p.acceptWord w).Inv := by
  have hempty : p.obuf.v = false := h.obuf_empty (by simp [hm])
  obtain ⟨-, ⟨hnb, -⟩, -, hshape, -, -, -⟩ := h
  have hrun : (p.acceptWord w).running = none := Pcmd.running_eq_none.2 hm
  refine ⟨⟨fun _ => rfl, fun _ => rfl, rfl, rfl, by simp [hrun]⟩, ⟨hnb, ?_⟩, ⟨fun _ => rfl, fun _ => ⟨rfl, rfl⟩⟩, hshape, ?_, ?_,
    Pcmd.resultInv_of_not_done rfl⟩
  · simp [hm]
  · simp [Pcmd.DeintInv, hm]
  · simp [Pcmd.ObufInv, hempty]

/-- `Finish` with OBUF empty keeps the invariant where its outcome is a valid result or none (R187). -/
theorem Pcmd.Inv.finish {p : Pcmd} {e : ErrName} (h : p.Inv) (hv : p.obuf.v = false)
    (he : (ErrName.ofStatus e.code).isSome = true) (hres : (p.finish e).ResultInv) : (p.finish e).Inv := by
  obtain ⟨⟨-, -, -, hop, -⟩, ⟨hnb, -⟩, hcursor, hshape, -, -, -⟩ := h
  refine ⟨⟨nofun, nofun, he, hop, rfl⟩, ⟨hnb, nofun⟩, hcursor, hshape, nofun, ?_, hres⟩
  simp [Pcmd.ObufInv, hv]

/-- A failure keeps the invariant: it leaves no valid result (R157). -/
theorem Pcmd.Inv.raise {p : Pcmd} {e : ErrName} (h : p.Inv) (hv : p.obuf.v = false)
    (he : (ErrName.ofStatus e.code).isSome = true) (hne : e.code ≠ 0) : (p.finish e).Inv :=
  h.finish hv he (Pcmd.resultInv_of_err hne)

/-! ### The acceptance of each command -/

/-- A READ starts with nothing gathered (R112). -/
theorem Pcmd.Inv.startRead {p : Pcmd} {n : Need} {i : Instr} (h : p.Inv) (hm : p.mode = .idle) (hd : p.done = false)
    (hb : p.byteCount = 0) (hcmd : p.cmd = encode i) (hrun : (p.startRead n).running = some i) : (p.startRead n).Inv := by
  have hempty : p.obuf.v = false := h.obuf_empty (by simp [hm])
  obtain ⟨⟨-, herr, hknown, hop, -⟩, -, hcursor, hshape, -, -, -⟩ := h
  refine ⟨⟨fun _ => hd, herr, hknown, hop, by simp [hrun, hcmd]⟩, ⟨Nat.zero_le 4, fun _ => ⟨?_, hb, by simp⟩⟩, hcursor, hshape,
    nofun, ?_, Pcmd.resultInv_of_not_done hd⟩
  · cases n <;> exact Nat.zero_lt_succ _
  · simp [Pcmd.ObufInv, hempty]

/-- DEINTERLEAVE latches its operands and starts with RES empty, or fails with none (R140, R142). -/
theorem Pcmd.Inv.startDeinterleave {p : Pcmd} (h : p.Inv) (hm : p.mode = .idle) (hd : p.done = false)
    (hcmd : p.cmd = encode .deinterleave) : p.startDeinterleave.Inv := by
  have hempty : p.obuf.v = false := h.obuf_empty (by simp [hm])
  obtain ⟨hstatus, hread, hcursor, -, -, -, -⟩ := h
  have latched : ({ p with lconfig := p.config, res := p.res.emptied } : Pcmd).Inv :=
    ⟨hstatus, hread, hcursor, p.res.shapeInv_emptied, by simp [Pcmd.DeintInv, hm], by simp [Pcmd.ObufInv, hempty],
      Pcmd.resultInv_of_not_done hd⟩
  rcases startDeinterleave_cases p with ⟨-, hs⟩ | ⟨-, -, hs⟩ | ⟨hbits, hch, hs⟩
  · rw [hs]
    exact latched.raise (e := .unsupportedBitDepth) hempty rfl (by decide)
  · rw [hs]
    exact latched.raise (e := .zeroChannels) hempty rfl (by decide)
  · rw [hs]
    obtain ⟨-, herr, hknown, hop, -⟩ := hstatus
    refine ⟨⟨fun _ => hd, herr, hknown, hop, by simp [Pcmd.running, hcmd]⟩, ⟨hread.1, nofun⟩, ⟨fun _ => rfl, fun _ => ⟨rfl, rfl⟩⟩,
      ResStore.shapeInv_start _ _, fun _ => ⟨hch, hbits, ?_, rfl, rfl, nofun, ResStore.balancedAt_start _ _⟩, ?_,
      Pcmd.resultInv_of_not_done hd⟩
    · exact Nat.pos_of_ne_zero fun hz => hch (BitVec.eq_of_toNat_eq hz)
    · simp [Pcmd.ObufInv, hempty]

/-- The acceptance of a command at IDLE (R184). -/
theorem Pcmd.Inv.accept {p : Pcmd} (h : p.Inv) (hm : p.mode = .idle) (i : Instr) :
    (startOf i (p.acceptWord (encode i))).Inv := by
  have haccepted := h.acceptWord hm (encode i)
  cases i with
  | deinterleave => exact haccepted.startDeinterleave hm rfl rfl
  | readU16 => exact haccepted.startRead hm rfl rfl rfl rfl
  | readU32 => exact haccepted.startRead hm rfl rfl rfl rfl

/-! ### A READ's token -/

theorem Need.count_le (n : Need) : n.count ≤ 4 := by
  cases n <;> decide

/-- A token of a running READ (R112, R114). -/
theorem Pcmd.Inv.readToken {p q : Pcmd} {tok : Token} (h : p.Inv) (hm : p.mode = .rd) (hop : p.op ≠ 1)
    (hq : readToken tok (p.countToken tok) = .next q) : q.Inv := by
  have ⟨hstatus, ⟨_, hrd⟩, hcursor, hshape, hdeint, hobuf, hresult⟩ := h
  obtain ⟨hlt, hcount, hacc⟩ := hrd hm
  have hempty : p.obuf.v = false := h.obuf_empty (by simp [hm])
  have hle := p.need.count_le
  rcases readToken_cases hq with ⟨b, rfl, hn, rfl⟩ | ⟨b, rfl, hn, rfl⟩ | ⟨ht, rfl⟩
  · obtain ⟨-, -, -, hopcmd, -⟩ := hstatus
    refine ⟨⟨nofun, nofun, rfl, hopcmd, rfl⟩, ⟨?_, nofun⟩, hcursor, hshape, nofun, ?_, Pcmd.resultInv_of_op hop⟩
    · show p.nb + 1 ≤ 4
      omega
    · simp [Pcmd.ObufInv, hempty]
  · have hn : p.nb + 1 ≠ p.need.count := hn
    refine ⟨hstatus, ⟨?_, fun _ => ⟨?_, ?_, ?_⟩⟩, hcursor, hshape, hdeint, hobuf, hresult⟩
    · show p.nb + 1 ≤ 4
      omega
    · show p.nb + 1 < p.need.count
      omega
    · simp [hcount, BitVec.ofNat_add]
    · have hb : b.toNat * 256 ^ p.nb ≤ 255 * 256 ^ p.nb := Nat.mul_le_mul_right _ (by omega)
      simp only [Pcmd.countToken_acc, Pcmd.countToken_nb, toNat_gather (show p.nb < 4 by omega) hacc, pow_succ]
      omega
  · have hp : p.countToken tok = p := by
      rcases ht with rfl | rfl <;> rfl
    rw [hp]
    exact h.raise (e := .truncatedInput) hempty rfl (by decide)

/-! ### A DEINTERLEAVE's token -/

/-- The bit depth whose samples have a sample's form (R144, R145). -/
def Sample.depth : Sample → Half
  | .byte _ => 8
  | .word _ => 16

theorem Sample.wide_iff_depth (smp : Sample) : smp.wide = true ↔ smp.depth = 16 := by
  cases smp <;> simp [Sample.wide, Sample.depth]

/-- A narrow sample's beat carries a sign-extended byte (R90). -/
theorem Sample.data_of_not_wide {smp : Sample} (h : smp.wide = false) :
    smp.data = (smp.data.setWidth 8).signExtend 16 := by
  cases smp with
  | byte b =>
    have hb : (b.signExtend 16).setWidth 8 = b := by
      ext i hi
      simp [BitVec.getElem_signExtend, hi, show i < 16 by omega]
    simp only [Sample.data, hb]
  | word w => cases h

/-- A sample's value is in the range of its width (R39). -/
theorem Sample.holds_value (smp : Sample) : (ResWidth.ofBits smp.depth).holds smp.value = true := by
  cases smp with
  | byte b =>
    have hrange := asS8_range b
    simp [ResWidth.ofBits, Sample.depth, ResWidth.holds, Sample.value, hrange]
  | word w =>
    have hrange : (w.toNat : Int) ≤ 65535 := by omega
    simp [ResWidth.ofBits, Sample.depth, ResWidth.holds, Sample.value, hrange]

/-- A completed sample of the running depth joins RES and OBUF, and the cursor moves on (R143, R145, R146). -/
theorem Pcmd.Inv.completeSample {p : Pcmd} {smp : Sample} (h : p.Inv) (hm : p.mode = .deint) (hp : p.pend = false)
    (hop : p.op = 1) (hdepth : p.bits = smp.depth) :
    ({ p.emit p.cur smp with cur := BitVec.ofNat 16 ((p.cur.toNat + 1) % p.channels.toNat) } : Pcmd).Inv := by
  obtain ⟨hstatus, hread, ⟨hlow, -⟩, hshape, hdeint, -, -⟩ := h
  obtain ⟨hch, hbits, hcur, hn, hw, -, hbal⟩ := hdeint hm
  have hd : p.done = false := hstatus.not_done (by simp [hm])
  have hchlt := p.channels.isLt
  have hnext : (p.cur.toNat + 1) % p.channels.toNat < p.channels.toNat := Nat.mod_lt _ (by omega)
  have hcur' : (BitVec.ofNat 16 ((p.cur.toNat + 1) % p.channels.toNat)).toNat = (p.cur.toNat + 1) % p.channels.toNat := by
    rw [BitVec.toNat_ofNat, Nat.mod_eq_of_lt (by omega)]
  have hholds : p.res.w.holds smp.value = true := by
    rw [hw, hdepth]
    exact smp.holds_value
  have hbal' := hbal.append smp.value hshape.1 (by rw [hn]; exact hcur)
  rw [hn, ← hcur'] at hbal'
  refine ⟨hstatus, ⟨hread.1, by simp [hm]⟩, ⟨hlow, fun ho => absurd hop ho⟩, hshape.append hholds,
    fun _ => ⟨hch, hbits, ?_, hn, hw, by simp [hp], hbal'⟩, fun _ => ⟨hm, hcur, ?_, Sample.data_of_not_wide⟩,
    Pcmd.resultInv_of_not_done hd⟩
  · rw [hcur']
    exact hnext
  · exact smp.wide_iff_depth.trans (by rw [← hdepth]; rfl)

/-- Counting a token changes BYTE_COUNT alone, of which the invariant says nothing during a DEINTERLEAVE (R31). -/
theorem Pcmd.Inv.countToken {p : Pcmd} (h : p.Inv) (hm : p.mode = .deint) (tok : Token) : (p.countToken tok).Inv := by
  obtain ⟨hstatus, ⟨hnb, -⟩, hcursor, hshape, hdeint, hobuf, hresult⟩ := h
  have hread : (p.countToken tok).ReadInv := ⟨by simpa using hnb, by simp [hm]⟩
  cases tok <;> exact ⟨hstatus, hread, hcursor, hshape, hdeint, hobuf, hresult⟩

/-- A token of a running DEINTERLEAVE, taken with OBUF empty (R140, R149, R150). -/
theorem Pcmd.Inv.deinterleaveToken {p q : Pcmd} {tok : Token} (h : p.Inv) (hm : p.mode = .deint) (hv : p.obuf.v = false)
    (hop : p.op = 1) (hq : deinterleaveToken tok p = .next q) : q.Inv := by
  have ⟨hstatus, hread, _, hshape, hdeint, hobuf, _⟩ := h
  obtain ⟨hch, hbits, hcur, hn, hw, hpend, hbal⟩ := hdeint hm
  have hd : p.done = false := hstatus.not_done (by simp [hm])
  rcases deinterleaveToken_cases hq with ⟨x, rfl, hb, -, rfl⟩ | ⟨x, rfl, hb, hp, rfl⟩ | ⟨x, rfl, hb, hp, -, rfl⟩ |
    ⟨rfl, hc, hp, rfl⟩ | ⟨rfl, -, rfl⟩ | ⟨rfl, rfl⟩
  · have hp : p.pend = false := Bool.eq_false_iff.2 fun hp => absurd (hpend hp) (by rw [hb]; decide)
    exact h.completeSample hm hp hop hb
  · have hb' : p.bits = 16 := hbits.resolve_left hb
    exact ⟨hstatus, hread, ⟨nofun, fun ho => absurd hop ho⟩, hshape, fun _ => ⟨hch, hbits, hcur, hn, hw, fun _ => hb', hbal⟩, hobuf,
      Pcmd.resultInv_of_not_done hd⟩
  · have hb' : p.bits = 16 := hbits.resolve_left hb
    have hwhole : ({ p with low := 0, pend := false } : Pcmd).Inv :=
      ⟨hstatus, hread, ⟨fun _ => rfl, fun ho => absurd hop ho⟩, hshape, fun _ => ⟨hch, hbits, hcur, hn, hw, nofun, hbal⟩, hobuf,
        Pcmd.resultInv_of_not_done hd⟩
    exact hwhole.completeSample (smp := .word (wordOfBytes p.low x)) hm rfl hop hb'
  · have hbal0 : p.res.BalancedAt 0 := by simpa [hc] using hbal
    exact h.finish (e := .none) hv rfl fun _ => ⟨hch, hbits, hc, hp, hn, hw, hbal0⟩
  · exact h.raise (e := .incompleteData) hv rfl (by decide)
  · exact h.raise (e := .truncatedInput) hv rfl (by decide)

/-! ### One step -/

/-- A token consumed by the command that runs. -/
theorem Pcmd.Inv.token {p q : Pcmd} {i : Instr} {tok : Token} (h : p.Inv) (hr : p.running = some i) (hy : p.sReady = true)
    (hq : tokenOf i tok (p.countToken tok) = .next q) : q.Inv := by
  have hop : p.op = opcode i := h.op_of_running hr
  cases i with
  | deinterleave =>
    have hm := Pcmd.running_eq_deinterleave.1 hr
    have hv : p.obuf.v = false := by simpa [Pcmd.sReady, hm] using hy
    exact (h.countToken hm tok).deinterleaveToken (by simpa using hm) (by simpa using hv)
      ((Pcmd.countToken_op tok p).trans hop) hq
  | readU16 => exact h.readToken (Pcmd.running_eq_readU16.1 hr).1 (by rw [hop]; decide) hq
  | readU32 => exact h.readToken (Pcmd.running_eq_readU32.1 hr).1 (by rw [hop]; decide) hq

/-- Every kind of step keeps PCMD's invariant. -/
theorem Pcmd.Inv.step {s t : State} (h : s.pcmd.Inv) (hk : StepKind s t) : t.pcmd.Inv := by
  cases hk with
  | quiet hp => rwa [hp]
  | reset hp => rw [hp]; exact Pcmd.inv_reset
  | config v hp => rw [hp]; exact h.setConfig v
  | beat hv hp => rw [hp]; exact h.clearObuf
  | dropped w hb hp => rw [hp]; exact h.overrun
  | illegal w why hb hd hp =>
    rw [hp]
    exact (h.acceptWord hb w).raise (h.obuf_empty (by simp [hb])) rfl (by decide)
  | accepted w i hb hd hp => rw [hp]; exact h.accept hb i
  | token i tok hb hy hp => exact h.token hb hy hp

/-- Every kind of step keeps the canonical form of the host's lists (log 16). -/
theorem StepKind.out_wf {s t : State} (hk : StepKind s t) (h : OutLists.wf s.host.out = true) :
    OutLists.wf t.host.out = true := by
  cases hk with
  | quiet hp hc hr hw ht hs ho => exact ho h
  | reset hp hc hr hw ht hs ho => rwa [ho]
  | config v hp hc hr hw ht hs ho => rwa [ho]
  | beat hv hp hc hr hw ht hs ho => rwa [ho]
  | dropped w hb hp hc hr hw ht hs ho => rwa [ho]
  | illegal w why hb hd hp hc hr hw ht hs ho => rwa [ho]
  | accepted w i hb hd hp hc hr hw ht hs ho => rwa [ho]
  | token i tok hb hy hp hc hr hw ht hs ho => rwa [ho]

/-- Settles O39: each kind of step keeps PCMD's invariant by the lemma on its operation, and the host's lists keep their form (log 16). -/
theorem stepKeepsInvariant : Obligations.StepKeepsInvariant := by
  intro s t ⟨hpcmd, hout⟩ hstep
  have hk := step_kind hstep
  exact ⟨hpcmd.step hk, hk.out_wf hout⟩

/-- Settles O38: PCMD's reset values meet PCMD's invariant, and the host's lists are empty. -/
theorem resetMeetsInvariant : Obligations.ResetMeetsInvariant :=
  ⟨Pcmd.inv_reset, rfl⟩

end Sys2Proof.Machine
end

section
/-! PROOF. The frame of DEINTERLEAVE (R29, R140). -/

namespace Sys2Proof.Machine

/-- What DEINTERLEAVE's acceptance part leaves as it was, whichever way the start checks go. -/
theorem startDeinterleave_frame (p : Pcmd) :
    p.startDeinterleave.cmd = p.cmd ∧ p.startDeinterleave.op = p.op ∧ p.startDeinterleave.result = p.result ∧
      p.startDeinterleave.config = p.config ∧ p.startDeinterleave.need = p.need ∧ p.startDeinterleave.acc = p.acc ∧
      p.startDeinterleave.nb = p.nb ∧ p.startDeinterleave.obuf = p.obuf := by
  rcases startDeinterleave_cases p with ⟨-, hs⟩ | ⟨-, -, hs⟩ | ⟨-, -, hs⟩ <;> simp [hs]

/-- The acceptance latches CONFIG whichever way the start checks go (R141). -/
theorem startDeinterleave_lconfig (p : Pcmd) : p.startDeinterleave.lconfig = p.config := by
  rcases startDeinterleave_cases p with ⟨-, hs⟩ | ⟨-, -, hs⟩ | ⟨-, -, hs⟩ <;> simp [hs]

/-- What a token of DEINTERLEAVE leaves as it was. -/
theorem deinterleaveToken_frame {tok : Token} {p q : Pcmd} (h : deinterleaveToken tok p = .next q) :
    q.cmd = p.cmd ∧ q.op = p.op ∧ q.lconfig = p.lconfig ∧ q.result = p.result ∧ q.config = p.config ∧ q.need = p.need ∧
      q.acc = p.acc ∧ q.nb = p.nb ∧ q.res.w = p.res.w ∧ q.res.n = p.res.n := by
  rcases deinterleaveToken_cases h with ⟨x, -, -, -, rfl⟩ | ⟨x, -, -, -, rfl⟩ | ⟨x, -, -, -, -, rfl⟩ | ⟨-, -, -, rfl⟩ |
    ⟨-, -, rfl⟩ | ⟨-, rfl⟩ <;> simp

/-- Settles O21: by the four things a step of a command can do. -/
theorem deinterleaveFrame : Obligations.DeinterleaveFrame := by
  intro s t h
  rcases exec_cases h with ⟨hm, rfl⟩ | ⟨hr, rfl⟩ | ⟨hr, -, tok, ts, p, hs, hp, rfl⟩ | ⟨j, hr, -, rfl⟩
  · obtain ⟨-, -, hresult, hconfig, hneed, hacc, hnb, hobuf⟩ := startDeinterleave_frame (s.pcmd.acceptWord (encode .deinterleave))
    exact ⟨hresult, hconfig, hneed, hacc, hnb, fun hne => absurd hm hne, fun _ => ⟨hobuf, rfl⟩, .inl rfl, rfl, rfl, rfl, rfl⟩
  · simp
  · obtain ⟨hcmd, hop, hlconfig, hresult, hconfig, hneed, hacc, hnb, hw, hn⟩ := deinterleaveToken_frame hp
    simp only [Pcmd.countToken_cmd, Pcmd.countToken_op, Pcmd.countToken_lconfig, Pcmd.countToken_result,
      Pcmd.countToken_config, Pcmd.countToken_need, Pcmd.countToken_acc, Pcmd.countToken_nb, Pcmd.countToken_res]
      at hcmd hop hlconfig hresult hconfig hneed hacc hnb hw hn
    have hm : s.pcmd.mode ≠ .idle := by simp [Pcmd.running_eq_deinterleave.1 hr]
    exact ⟨hresult, hconfig, hneed, hacc, hnb, fun _ => ⟨hcmd, hop, hlconfig, hw, hn⟩, fun hidle => absurd hidle hm,
      .inr (by rw [hs]; rfl), rfl, rfl, rfl, rfl⟩
  · simp

end Sys2Proof.Machine
end

section
/-! PROOF. The registers: STATUS and CURSOR as numbers, what a read answers, and CONFIG (R22 to R33, R192). -/

namespace Sys2Proof.Machine

/-- The number two concatenated words stand for. -/
theorem toNat_append_eq {m n : Nat} (x : BitVec m) (y : BitVec n) : (x ++ y).toNat = x.toNat * 2 ^ n + y.toNat := by
  rw [BitVec.toNat_append, ← Nat.shiftLeft_add_eq_or_of_lt y.isLt, Nat.shiftLeft_eq]

theorem Pcmd.toNat_busy (p : Pcmd) : p.busy.toNat = if p.mode = .idle then 0 else 1 := by
  cases hm : p.mode <;> simp [Pcmd.busy, hm]

theorem Pcmd.toNat_rvalid (p : Pcmd) : p.rvalid.toNat = if p.done = true ∧ p.err = 0 ∧ p.op = 1 then 1 else 0 := by
  simp only [← Pcmd.rvalid_eq_true]
  cases p.rvalid <;> rfl

/-- Settles O25: each field of STATUS stands above the ones after it. -/
theorem statusLayout : Obligations.StatusLayout := by
  intro p
  obtain ⟨-, hdone, -, -⟩ := p.status_bits
  refine ⟨?_, hdone.symm⟩
  rw [← Pcmd.toNat_busy, ← Pcmd.toNat_rvalid]
  simp only [Pcmd.status, toNat_append_eq, BitVec.toNat_ofBool, BitVec.toNat_zero]
  omega

/-- Settles O26: each field of CURSOR stands above the ones after it. -/
theorem cursorLayout : Obligations.CursorLayout := by
  intro p
  simp only [Pcmd.cursor, toNat_append_eq, BitVec.toNat_ofBool, BitVec.toNat_zero]
  omega

/-- Settles O27: each of the eight offsets is its register's. -/
theorem registerReads : Obligations.RegisterReads :=
  fun _ => ⟨rfl, rfl, rfl, rfl, rfl, rfl, rfl, rfl⟩

/-- Settles O29: a write of CONFIG is `regWrite_config` on the state past the listed step, and for the host's WR past its statement. -/
theorem configWriteReadsBack : Obligations.ConfigWriteReadsBack := by
  intro s v
  constructor
  · intro es he
    exact ⟨_, step_listed he, rfl, rfl⟩
  · intro hw
    rcases step_of_nextWrite hw with h | h
    · exact ⟨_, h.trans (regWrite_config v _), rfl, rfl, rfl, rfl, rfl, .inl rfl, rfl⟩
    · exact ⟨_, h.trans (regWrite_config v _), rfl, rfl, rfl, rfl, rfl, .inr rfl, rfl⟩

end Sys2Proof.Machine
end

section
/-! PROOF. Which steps change RESULT, LCONFIG and CMD (R25, R29, R32), and what a valid result is (R41). -/

namespace Sys2Proof.Machine

/-- Settles O42: the invariant holds after the step, and with RVALID = 1 it balances the channels at cursor 0. -/
theorem validResultIsBalanced : Obligations.ValidResultIsBalanced := by
  intro s t hinv hstep hvalid j k hj hk
  have ⟨⟨_, _, _, _, _, _, hresult⟩, _⟩ : t.Inv := stepKeepsInvariant s t hinv hstep
  obtain ⟨-, -, -, hrvalid⟩ := t.pcmd.status_bits
  obtain ⟨-, -, -, -, -, -, hbal⟩ := hresult (hrvalid.symm.trans hvalid)
  exact hbal.length_eq hj hk

/-- A token of a READ changes RESULT only where it is the last byte, which finishes with ERR = 0; a READ_U16's two bytes are below 2^16
(R115, R117). -/
theorem readToken_result {tok : Token} {p q : Pcmd} (h : readToken tok p = .next q) (hacc : p.acc.toNat < 256 ^ p.nb)
    (hne : q.result ≠ p.result) : (p.need = .two → q.result.toNat < 2 ^ 16) ∧ q.mode = .idle ∧ q.done = true ∧ q.err = 0 := by
  rcases readToken_cases h with ⟨b, -, hn, rfl⟩ | ⟨b, -, -, rfl⟩ | ⟨-, rfl⟩
  · refine ⟨fun htwo => ?_, rfl, rfl, rfl⟩
    have hnb : p.nb = 1 := by rw [htwo] at hn; simpa [Need.count] using hn
    have hb := b.isLt
    rw [hnb] at hacc
    simp only [hnb]
    rw [toNat_gather (by omega) hacc]
    omega
  · exact absurd rfl hne
  · exact absurd rfl hne

/-- Settles O44: of the kinds of step only a reset and a READ's last byte write RESULT. -/
theorem onlySuccessfulReadsWriteResult : Obligations.OnlySuccessfulReadsWriteResult := by
  intro s t hinv hstep hne
  obtain ⟨⟨-, ⟨-, hrd⟩, -⟩, -⟩ := hinv
  -- A READ's token: the invariant bounds what it has gathered.
  have read_token : ∀ {tok : Token}, s.pcmd.mode = .rd → readToken tok (s.pcmd.countToken tok) = .next t.pcmd →
      (s.pcmd.need = .two → t.pcmd.result.toNat < 2 ^ 16) ∧ t.pcmd.mode = .idle ∧ t.pcmd.done = true ∧ t.pcmd.err = 0 := by
    intro tok hm hp
    obtain ⟨-, -, hacc⟩ := hrd hm
    simpa using readToken_result hp (by simpa using hacc) (by simpa using hne)
  cases step_kind hstep with
  | quiet hp => simp [hp] at hne
  | reset hp hc hr => exact .inl ⟨hr, by rw [hp]; rfl⟩
  | config v hp => simp [hp] at hne
  | beat hv hp => simp [hp] at hne
  | dropped w hb hp => simp [hp] at hne
  | illegal w why hb hd hp => simp [hp, Pcmd.acceptIllegal] at hne
  | accepted w i hb hd hp =>
    refine absurd ?_ hne
    rw [hp]
    cases i with
    | deinterleave =>
      obtain ⟨-, -, hresult, -⟩ := startDeinterleave_frame (s.pcmd.acceptWord (encode .deinterleave))
      exact hresult
    | readU16 => rfl
    | readU32 => rfl
  | token i tok hb hy hp =>
    cases i with
    | deinterleave =>
      obtain ⟨-, -, -, hresult, -⟩ := deinterleaveToken_frame hp
      simp [hresult] at hne
    | readU16 =>
      obtain ⟨hm, htwo⟩ := Pcmd.running_eq_readU16.1 hb
      obtain ⟨hlt, hdone⟩ := read_token hm hp
      exact .inr ⟨.inl ⟨hb, hlt htwo⟩, hdone⟩
    | readU32 => exact .inr ⟨.inr hb, (read_token (Pcmd.running_eq_readU32.1 hb).1 hp).2⟩

/-- A token of a READ leaves CMD and LCONFIG as they were (R116). -/
theorem readToken_keeps_cmd_lconfig {tok : Token} {p q : Pcmd} (h : readToken tok p = .next q) :
    q.cmd = p.cmd ∧ q.lconfig = p.lconfig := by
  rcases readToken_cases h with ⟨b, -, -, rfl⟩ | ⟨b, -, -, rfl⟩ | ⟨-, rfl⟩ <;> simp

/-- A token leaves CMD and LCONFIG as they were, whichever command takes it. -/
theorem tokenOf_keeps_cmd_lconfig {i : Instr} {tok : Token} {p q : Pcmd} (h : tokenOf i tok (p.countToken tok) = .next q) :
    q.cmd = p.cmd ∧ q.lconfig = p.lconfig := by
  have kept : q.cmd = (p.countToken tok).cmd ∧ q.lconfig = (p.countToken tok).lconfig := by
    cases i with
    | deinterleave =>
      obtain ⟨hcmd, -, hlconfig, -⟩ := deinterleaveToken_frame h
      exact ⟨hcmd, hlconfig⟩
    | readU16 => exact readToken_keeps_cmd_lconfig h
    | readU32 => exact readToken_keeps_cmd_lconfig h
  simpa using kept

/-- Settles O45: of the kinds of step only a reset and DEINTERLEAVE's acceptance write LCONFIG. -/
theorem onlyDeinterleaveAcceptanceWritesLconfig : Obligations.OnlyDeinterleaveAcceptanceWritesLconfig := by
  intro s t hstep
  cases step_kind hstep with
  | quiet hp hc hr hw => simp [hp, hw]
  | reset hp hc hr hw => simp [hr, hw]
  | config v hp hc hr hw => simp [hp, hw]
  | beat hv hp hc hr hw => simp [hp, hw]
  | dropped w hb hp => simp [hp, hb]
  | illegal w why hb hd hp hc hr hw =>
    refine ⟨fun hne => absurd (by rw [hp]; rfl) hne, fun _ h1 => ?_⟩
    cases hw.symm.trans h1
    cases hd
  | accepted w i hb hd hp hc hr hw =>
    rw [eq_encode_of_decode hd] at hw
    cases i with
    | deinterleave => exact ⟨fun _ => .inr ⟨hb, hw⟩, fun _ _ => by rw [hp]; exact startDeinterleave_lconfig _⟩
    | readU16 => exact ⟨fun hne => absurd (by rw [hp]; rfl) hne, fun _ h1 => by rw [hw] at h1; cases h1⟩
    | readU32 => exact ⟨fun hne => absurd (by rw [hp]; rfl) hne, fun _ h1 => by rw [hw] at h1; cases h1⟩
  | token i tok hb hy hp hc hr hw => simp [(tokenOf_keeps_cmd_lconfig hp).2, hw]

/-- A command's acceptance holds its word, whatever its own part does (R184). -/
theorem startOf_acceptWord_cmd_op (i : Instr) (w : Word) (p : Pcmd) :
    (startOf i (p.acceptWord w)).cmd = w ∧ (startOf i (p.acceptWord w)).op = opField w := by
  cases i with
  | deinterleave =>
    obtain ⟨hcmd, hop, -⟩ := startDeinterleave_frame (p.acceptWord w)
    exact ⟨hcmd, hop⟩
  | readU16 => exact ⟨rfl, rfl⟩
  | readU32 => exact ⟨rfl, rfl⟩

/-- Settles O46: of the kinds of step only a reset and the acceptance of a word write CMD. -/
theorem cmdHoldsLastAcceptedWord : Obligations.CmdHoldsLastAcceptedWord := by
  intro s t hstep
  cases step_kind hstep with
  | quiet hp hc hr hw => simp [hp, hw]
  | reset hp hc hr hw => simp [hr, hw]
  | config v hp hc hr hw => simp [hp, hw]
  | beat hv hp hc hr hw => simp [hp, hw]
  | dropped w hb hp => simp [hp, hb]
  | illegal w why hb hd hp hc hr hw =>
    refine ⟨fun w' hw' _ => ?_, fun _ => .inr ⟨hb, w, hw⟩⟩
    cases hw.symm.trans hw'
    rw [hp]
    exact ⟨rfl, rfl⟩
  | accepted w i hb hd hp hc hr hw =>
    refine ⟨fun w' hw' _ => ?_, fun _ => .inr ⟨hb, w, hw⟩⟩
    cases hw.symm.trans hw'
    rw [hp, ← eq_encode_of_decode hd]
    exact startOf_acceptWord_cmd_op i w s.pcmd
  | token i tok hb hy hp hc hr hw => simp [(tokenOf_keeps_cmd_lconfig hp).1, hw]

end Sys2Proof.Machine
end

section
/-! PROOF. A platform's blocks are independent (R21, R196; log 11). -/

namespace Sys2Proof.Machine

/-- Settles O24: `stepInstance k` is `mapNext` of block `k`'s own step, and writes the platform's list at `k` alone. -/
theorem instancesShareNothing : Obligations.InstancesShareNothing := by
  intro p k
  refine ⟨fun s hs => ?_, Platform.stepInstance_of_none, fun q j hq => ?_⟩
  · rw [Platform.stepInstance_of_some hs]
    obtain ⟨hk, -⟩ := List.getElem?_eq_some_iff.1 hs
    refine ⟨fun s' h => ?_, fun r h => by rw [h, mapNext_fault], fun r h => by rw [h, mapNext_refused]⟩
    rw [h, mapNext_next]
    exact ⟨_, rfl, List.getElem?_set_self hk⟩
  · cases hs : p.insts[k]? with
    | none =>
      rw [Platform.stepInstance_of_none hs] at hq
      cases hq
      exact ⟨rfl, fun _ => rfl⟩
    | some s =>
      rw [Platform.stepInstance_of_some hs, mapNext_eq_next] at hq
      obtain ⟨s', -, rfl⟩ := hq
      exact ⟨List.length_set, fun hj => List.getElem?_set_ne (Ne.symm hj)⟩

end Sys2Proof.Machine
end

section
/-! PROOF. A running DEINTERLEAVE follows the source's decode of its payload, whatever steps stand between its tokens
(R67, R143 to R150). -/

namespace Sys2Proof.Machine

/-! ### The samples of a payload that grows by a byte -/

/-- In 8-bit mode every byte is a sample (R143). -/
theorem payloadSamples_bits8_append (xs : List Byte) (x : Byte) :
    payloadSamples .bits8 (xs ++ [x]) = payloadSamples .bits8 xs ++ [.byte x] := by
  simp [payloadSamples]

/-- In 16-bit mode the first byte of a pair completes no sample (R145). -/
theorem payloadSamples_bits16_append_even {xs : List Byte} (x : Byte) (h : xs.length % 2 = 0) :
    payloadSamples .bits16 (xs ++ [x]) = payloadSamples .bits16 xs := by
  simp only [payloadSamples, payloadWords_append_even x h]

/-- In 16-bit mode the second byte of a pair completes a word with the one before it (R145). -/
theorem payloadSamples_bits16_append_odd {xs : List Byte} (x : Byte) (h : xs.length % 2 = 1) :
    payloadSamples .bits16 (xs ++ [x]) = payloadSamples .bits16 xs ++ [.word (wordOfBytes (xs.getLast?.getD 0) x)] := by
  have hword : BitVec.ofNat 16 ((xs.getLast?.getD 0).toNat + 256 * x.toNat) = wordOfBytes (xs.getLast?.getD 0) x := by
    rw [← toNat_wordOfBytes, BitVec.ofNat_toNat, BitVec.setWidth_eq]
  simp only [payloadSamples, payloadWords_append_odd x h, List.map_append, List.map_cons, List.map_nil, hword]

/-- In 16-bit mode every byte starts or completes a pair (R145). -/
theorem payloadPend_bits16_append (xs : List Byte) (x : Byte) :
    payloadPend .bits16 (xs ++ [x]) = !payloadPend .bits16 xs := by
  simp only [payloadPend, List.length_append, List.length_singleton, ← decide_not]
  exact decide_eq_decide.2 (by omega)

/-- LOW is 0 where no half word is held (R156). -/
theorem payloadLow_of_not_pend {w : ResWidth} {xs : List Byte} (h : payloadPend w xs = false) : payloadLow w xs = 0 := by
  simp [payloadLow, h]

/-- LOW is the payload's last byte where a half word is held (R156). -/
theorem payloadLow_of_pend {w : ResWidth} {xs : List Byte} (h : payloadPend w xs = true) :
    payloadLow w xs = xs.getLast?.getD 0 := by
  simp [payloadLow, h]

/-- How many samples a payload has (R154, R156). -/
theorem payloadSamples_length (w : ResWidth) (xs : List Byte) :
    (payloadSamples w xs).length = xs.length / (w.bits / 8) := by
  cases w with
  | bits8 => simp [payloadSamples, ResWidth.bits]
  | bits16 => simp [payloadSamples, ResWidth.bits, payloadWords_length]

/-! ### What a running DEINTERLEAVE has decoded -/

theorem toNat_ofNat_mod {c : Half} (hc : c ≠ 0) (n : Nat) : (BitVec.ofNat 16 (n % c.toNat)).toNat = n % c.toNat := by
  have hlt : n % c.toNat < c.toNat := Nat.mod_lt _ (Nat.pos_of_ne_zero fun hz => hc (BitVec.eq_of_toNat_eq hz))
  have hc16 := c.isLt
  rw [BitVec.toNat_ofNat, Nat.mod_eq_of_lt (by omega)]

/-- A sample at the channel its number gives extends the decoded store by that sample (R67, R147). -/
theorem ResStore.append_channelValues {w : ResWidth} {c : Half} (hc : c ≠ 0) (smps : List Sample) (smp : Sample) :
    ResStore.append (BitVec.ofNat 16 (smps.length % c.toNat)) smp.value
        { w := w, n := c, seqs := (List.range c.toNat).map (fun k => channelValues c.toNat k 0 smps) } =
      { w := w, n := c, seqs := (List.range c.toNat).map (fun k => channelValues c.toNat k 0 (smps ++ [smp])) } := by
  simp only [ResStore.append, toNat_ofNat_mod hc, ResStore.mk.injEq, true_and]
  apply List.ext_getElem
  · simp
  · intro k hk hk'
    simp only [List.getElem_modify, List.getElem_map, List.getElem_range, channelValues_append_singleton, Nat.zero_add]
    split <;> simp

/-- A completed sample extends what is decoded by one sample, no half word being left (R143, R145, R146). -/
theorem Pcmd.HasDecoded.sample {w : ResWidth} {c : Half} {xs : List Byte} {x : Byte} {smp : Sample} {p : Pcmd}
    (h : p.HasDecoded w c xs) (hsmps : payloadSamples w (xs ++ [x]) = payloadSamples w xs ++ [smp])
    (hpend : payloadPend w (xs ++ [x]) = false) :
    ({ ({ p with byteCount := p.byteCount + 1, low := 0, pend := false } : Pcmd).emit p.cur smp with
        cur := BitVec.ofNat 16 ((p.cur.toNat + 1) % p.channels.toNat) } : Pcmd).HasDecoded w c (xs ++ [x]) := by
  obtain ⟨hc, hch, hbits, hcount, hcur, -, -, hres⟩ := h
  refine ⟨hc, hch, hbits, ?_, ?_, hpend.symm, (payloadLow_of_not_pend hpend).symm, ?_⟩
  · simp [hcount, BitVec.ofNat_add]
  · show BitVec.ofNat 16 ((p.cur.toNat + 1) % p.channels.toNat) = _
    rw [hcur, hch, toNat_ofNat_mod hc, hsmps, List.length_append, List.length_singleton, Nat.mod_add_mod]
  · show p.res.append p.cur smp.value = _
    rw [hres, hcur, hsmps, ResStore.append_channelValues hc]

/-- In 16-bit mode no half word is held only after whole words (R156). -/
theorem Pcmd.HasDecoded.even_of_not_pend {c : Half} {xs : List Byte} {p : Pcmd} (h : p.HasDecoded .bits16 c xs)
    (hp : p.pend = false) : xs.length % 2 = 0 := by
  obtain ⟨-, -, -, -, -, hpend, -, -⟩ := h
  simpa [payloadPend, hp] using hpend

/-- The first byte of a pair extends the payload and no channel (R145). -/
theorem Pcmd.HasDecoded.half {c : Half} {xs : List Byte} {p : Pcmd} (x : Byte)
    (h : p.HasDecoded .bits16 c xs) (hp : p.pend = false) :
    ({ p with byteCount := p.byteCount + 1, low := x, pend := true } : Pcmd).HasDecoded .bits16 c (xs ++ [x]) := by
  have heven := h.even_of_not_pend hp
  obtain ⟨hc, hch, hbits, hcount, hcur, hpend, -, hres⟩ := h
  have hpend' : payloadPend .bits16 (xs ++ [x]) = true := by simp [payloadPend_bits16_append, ← hpend, hp]
  refine ⟨hc, hch, hbits, ?_, ?_, hpend'.symm, ?_, ?_⟩
  · simp [hcount, BitVec.ofNat_add]
  · rw [payloadSamples_bits16_append_even x heven]
    exact hcur
  · simp [payloadLow_of_pend hpend']
  · rw [payloadSamples_bits16_append_even x heven]
    exact hres

/-- END's check of the cursor is the source's check of the payload's length against the frame size (R150, R153). -/
theorem Pcmd.HasDecoded.frame_complete_iff {w : ResWidth} {c : Half} {xs : List Byte} {p : Pcmd} (h : p.HasDecoded w c xs) :
    p.cur = 0 ∧ p.pend = false ↔ xs.length % frameSize w c.toNat = 0 := by
  obtain ⟨hc, -, -, -, hcur, hpend, -, -⟩ := h
  have hcur0 : p.cur = 0 ↔ xs.length / (w.bits / 8) % c.toNat = 0 := by
    rw [hcur, ← payloadSamples_length, ← BitVec.toNat_inj, toNat_ofNat_mod hc]
    rfl
  rw [hcur0, hpend]
  cases w with
  | bits8 => simp [payloadPend, frameSize, ResWidth.bits]
  | bits16 =>
    have hsplit := Nat.mod_mul (x := xs.length) (a := 2) (b := c.toNat)
    simp only [payloadPend, frameSize, ResWidth.bits, Nat.reduceDiv, Nat.mul_comm c.toNat 2, hsplit, decide_eq_false_iff_not]
    omega

/-- END finishes with the error the source gives the payload (R150, R153). -/
theorem Pcmd.HasDecoded.deinterleaveEnd {w : ResWidth} {c : Half} {xs : List Byte} {p : Pcmd} (h : p.HasDecoded w c xs) :
    p.deinterleaveEnd = p.finish (endError w c.toNat xs) := by
  rw [Pcmd.deinterleaveEnd, endError]
  simp only [h.frame_complete_iff]
  split <;> rfl

/-! ### The steps of a running DEINTERLEAVE -/

@[simp] theorem Pcmd.countToken_channels (tok : Token) (p : Pcmd) : (p.countToken tok).channels = p.channels := by
  simp [Pcmd.channels]

@[simp] theorem Pcmd.countToken_bits (tok : Token) (p : Pcmd) : (p.countToken tok).bits = p.bits := by
  simp [Pcmd.bits]

/-- Of a state only PCMD and the beats taken say what is decoded. -/
theorem State.Decoding.of_eq {w : ResWidth} {c : Half} {pre taken : List Beat} {xs : List Byte} {p : Pcmd} {s t : State}
    (hp : t.pcmd = p) (ht : t.taken = taken) (h : ({ s with pcmd := p, taken := taken } : State).Decoding w c pre xs) :
    t.Decoding w c pre xs := by
  subst hp ht
  exact h

/-- With OBUF empty every beat so far is taken (R66, R148). -/
theorem State.Decoding.taken_of_empty {w : ResWidth} {c : Half} {pre : List Beat} {xs : List Byte} {s : State}
    (h : s.Decoding w c pre xs) (hv : s.pcmd.obuf.v = false) :
    s.taken = pre ++ sampleBeats c.toNat 0 (payloadSamples w xs) := by
  obtain ⟨-, -, -, -, -, hbeats⟩ := h
  simpa [hv] using hbeats

/-- A beat that transfers moves from OBUF to the record of the beats taken (R66, log 19). -/
theorem State.Decoding.beat {w : ResWidth} {c : Half} {pre : List Beat} {xs : List Byte} {s : State}
    (h : s.Decoding w c pre xs) (hv : s.pcmd.obuf.v = true) :
    ({ s with pcmd := { s.pcmd with obuf := { s.pcmd.obuf with v := false } },
              taken := s.taken ++ [s.pcmd.obuf.beat] } : State).Decoding w c pre xs := by
  obtain ⟨hm, hop, hd, he, hdec, hbeats⟩ := h
  exact ⟨hm, hop, hd, he, hdec, by simpa [hv] using hbeats⟩

/-- A byte that completes a sample: the sample is decoded and its beat is on offer (R67). -/
theorem State.Decoding.sample {w : ResWidth} {c : Half} {pre : List Beat} {xs : List Byte} {x : Byte} {smp : Sample}
    {s : State} (h : s.Decoding w c pre xs) (hv : s.pcmd.obuf.v = false)
    (hsmps : payloadSamples w (xs ++ [x]) = payloadSamples w xs ++ [smp]) (hpend : payloadPend w (xs ++ [x]) = false) :
    ({ s with pcmd :=
      { ({ s.pcmd with byteCount := s.pcmd.byteCount + 1, low := 0, pend := false } : Pcmd).emit s.pcmd.cur smp with
        cur := BitVec.ofNat 16 ((s.pcmd.cur.toNat + 1) % s.pcmd.channels.toNat) } } : State).Decoding w c pre (xs ++ [x]) := by
  have htaken := h.taken_of_empty hv
  obtain ⟨hm, hop, hd, he, hdec, -⟩ := h
  refine ⟨hm, hop, hd, he, hdec.sample hsmps hpend, ?_⟩
  obtain ⟨-, -, -, -, hcur, -, -, -⟩ := hdec
  simp only [htaken, hsmps, sampleBeats_append_singleton, List.append_assoc, Nat.zero_add, ← hcur]
  rfl

/-- The first byte of a pair is held and emits no beat (R145). -/
theorem State.Decoding.half {c : Half} {pre : List Beat} {xs : List Byte} {s : State} (x : Byte)
    (h : s.Decoding .bits16 c pre xs) (hp : s.pcmd.pend = false) :
    ({ s with pcmd := { s.pcmd with byteCount := s.pcmd.byteCount + 1, low := x, pend := true } } : State).Decoding
      .bits16 c pre (xs ++ [x]) := by
  obtain ⟨hm, hop, hd, he, hdec, hbeats⟩ := h
  refine ⟨hm, hop, hd, he, hdec.half x hp, ?_⟩
  rw [payloadSamples_bits16_append_even x (hdec.even_of_not_pend hp)]
  exact hbeats

/-- A BYTE token extends the payload by it (R143, R145). -/
theorem State.Decoding.byte {w : ResWidth} {c : Half} {pre : List Beat} {xs : List Byte} {x : Byte} {s t : State}
    (h : s.Decoding w c pre xs) (hv : s.pcmd.obuf.v = false) (ht : t.taken = s.taken)
    (hq : deinterleaveToken (.byte x) (s.pcmd.countToken (.byte x)) = .next t.pcmd) : t.Decoding w c pre (xs ++ [x]) := by
  have ⟨_, _, _, _, ⟨hc, hch, hbits, _, _, hpend, hlow, _⟩, _⟩ := h
  have hchannels : (s.pcmd.countToken (.byte x)).channels ≠ 0 := by rwa [Pcmd.countToken_channels, hch]
  have hbits' := (s.pcmd.countToken_bits (.byte x)).trans hbits
  cases w with
  | bits8 =>
    rw [deinterleaveToken_byte8 hbits' hchannels, Host.Outcome.next.injEq] at hq
    have hnohalf : ({ s.pcmd with byteCount := s.pcmd.byteCount + 1, low := 0, pend := false } : Pcmd) =
        s.pcmd.countToken (.byte x) := by
      have hlow0 : s.pcmd.low = 0 := hlow
      have hpend0 : s.pcmd.pend = false := hpend
      rw [Pcmd.countToken_onByte, ← hlow0, ← hpend0]
    have hnext := h.sample (x := x) hv (payloadSamples_bits8_append xs x) rfl
    rw [hnohalf] at hnext
    exact .of_eq hq.symm ht hnext
  | bits16 =>
    have hbits8 : (s.pcmd.countToken (.byte x)).bits ≠ 8 := by
      rw [hbits']
      decide
    cases hp : s.pcmd.pend with
    | false =>
      rw [deinterleaveToken_first hbits8 (by simpa using hp), Host.Outcome.next.injEq] at hq
      exact .of_eq hq.symm ht (h.half x hp)
    | true =>
      rw [deinterleaveToken_second hbits8 (by simpa using hp) hchannels, Host.Outcome.next.injEq] at hq
      rw [hp] at hpend
      rw [payloadLow_of_pend hpend.symm] at hlow
      have hodd : xs.length % 2 = 1 := by simpa [payloadPend] using hpend
      have hsmps := payloadSamples_bits16_append_odd x hodd
      rw [← hlow] at hsmps
      have hpend' : payloadPend .bits16 (xs ++ [x]) = false := by simp [payloadPend_bits16_append, ← hpend]
      exact .of_eq hq.symm ht (h.sample hv hsmps hpend')

/-- A token that finishes the command leaves what is decoded as it was, every beat taken (R71, R148). -/
theorem State.Decoding.finish {w : ResWidth} {c : Half} {pre : List Beat} {xs : List Byte} {e : ErrName} {s t : State}
    (h : s.Decoding w c pre xs) (hv : s.pcmd.obuf.v = false) (ht : t.taken = s.taken) (hp : t.pcmd = s.pcmd.finish e) :
    t.Decoded w c pre xs e := by
  have htaken := h.taken_of_empty hv
  obtain ⟨-, hop, -, -, hdec, -⟩ := h
  simp only [State.Decoded, hp, ht]
  exact ⟨rfl, hop, rfl, rfl, hdec, hv, htaken⟩

/-- Settles O53: of the kinds of step only a consumed token and a reset change what is decoded; a token extends the payload or finishes
the command, and a beat that transfers moves from OBUF to the record (log 19). -/
theorem decodeFollowsTheSource : Obligations.DecodeFollowsTheSource := by
  intro w c pre xs s t h hstep
  have ⟨hm, _, _, _, hdec, _⟩ := h
  have hbusy : s.pcmd.mode ≠ .idle := by simp [hm]
  cases step_kind hstep with
  | quiet hp hc hr hw ht => rw [hc]; exact .inr ⟨hr, .of_eq (s := s) hp ht h⟩
  | reset hp hc hr => rw [hc]; exact .inl ⟨hr, hp⟩
  | config v hp hc hr hw ht => rw [hc]; exact .inr ⟨hr, .of_eq (s := s) hp ht h⟩
  | beat hv hp hc hr hw ht => rw [hc]; exact .inr ⟨hr, .of_eq hp ht (h.beat hv)⟩
  | dropped w' hb hp hc hr hw ht => rw [hc]; exact .inr ⟨hr, .of_eq (s := s) hp ht h⟩
  | illegal w' why hb => exact absurd hb hbusy
  | accepted w' i hb => exact absurd hb hbusy
  | token i tok hb hy hp hc hr hw ht hs =>
    have hv : s.pcmd.obuf.v = false := by simpa [Pcmd.sReady, hm] using hy
    obtain rfl : i = .deinterleave := by simpa [Pcmd.running_eq_deinterleave.2 hm] using hb.symm
    rw [hc]
    refine ⟨hs, ?_⟩
    generalize Token.ofRaw tok = token at hp ⊢
    cases token with
    | byte x => exact h.byte hv ht hp
    | endOfInput => exact h.finish hv ht ((Host.Outcome.next.inj hp).symm.trans hdec.deinterleaveEnd)
    | err => exact h.finish hv ht (Host.Outcome.next.inj hp).symm

/-! ### The other channels -/

/-- A token of DEINTERLEAVE changes RES at the cursor's channel only (R67, R143, R145). -/
theorem deinterleaveToken_chan_other {tok : Token} {p q : Pcmd} {k : Nat} (h : deinterleaveToken tok p = .next q)
    (ne : k ≠ p.cur.toNat) : q.res.chan k = p.res.chan k := by
  rcases deinterleaveToken_cases h with ⟨x, -, -, -, rfl⟩ | ⟨x, -, -, -, rfl⟩ | ⟨x, -, -, -, -, rfl⟩ | ⟨-, -, -, rfl⟩ |
    ⟨-, -, rfl⟩ | ⟨-, rfl⟩
  · exact ResStore.chan_append_other ne
  · rfl
  · exact ResStore.chan_append_other ne
  · rfl
  · rfl
  · rfl

/-- Settles O22: a hold and a dropped write leave RES, and a token changes the cursor's channel only. -/
theorem otherChannelsUntouched : Obligations.OtherChannelsUntouched := by
  intro s t k hm h hk
  rcases exec_cases h with ⟨hidle, -⟩ | ⟨-, rfl⟩ | ⟨-, -, tok, ts, p, -, hp, rfl⟩ | ⟨j, -, -, rfl⟩
  · cases hm.symm.trans hidle
  · rfl
  · simpa using deinterleaveToken_chan_other hp (by simpa using hk)
  · rfl

end Sys2Proof.Machine
end

section
/-! PROOF. PCMD takes tokens in order, holds where it cannot take one, and is drained when DONE = 1 (R62 to R64, R71, R219). -/

namespace Sys2Proof.Machine

/-- A DEINTERLEAVE is not ready while OBUF has a beat (R62, R64). -/
theorem Pcmd.sReady_eq_false_of_obuf {p : Pcmd} (hm : p.mode = .deint) (hv : p.obuf.v = true) : p.sReady = false := by
  simp [Pcmd.sReady, hm, hv]

/-- An idle PCMD is not ready (R62). -/
theorem Pcmd.sReady_eq_false_of_idle {p : Pcmd} (hm : p.mode = .idle) : p.sReady = false := by
  simp [Pcmd.sReady, hm]

/-- A running command holds where PCMD is not ready or no token is presented (R64, log 5). -/
theorem exec_hold {i : Instr} {s : State} (hr : s.pcmd.running = some i) (h : s.pcmd.sReady = false ∨ s.stream = []) :
    exec i s = .next s := by
  rw [exec_running hr, consume_hold h]

/-- Settles O15: with no token presented or OBUF full the step is a hold, listed or not. -/
theorem commandHolds : Obligations.CommandHolds := by
  intro s i hr hwait
  have hnot : s.pcmd.sReady = false ∨ s.stream = [] := by
    rcases hwait with hs | ⟨rfl, hv⟩
    · exact .inr hs
    · exact .inl (Pcmd.sReady_eq_false_of_obuf (Pcmd.running_eq_deinterleave.1 hr) hv)
  refine ⟨exec_hold hr hnot, fun es he => ?_⟩
  rw [step_listed he]
  exact (pcmdStep_running (s := { s with events := es }) hr).trans (exec_hold hr hnot)

/-- Settles O32: of the kinds of step only a token consumed shortens the queue, by its head, and PCMD is ready there. -/
theorem tokensGoOnlyToRunningCommands : Obligations.TokensGoOnlyToRunningCommands := by
  intro s t hstep hnew
  have kept : t.stream = s.stream → ∃ added, t.stream = s.stream ++ added := fun hs => ⟨[], by simp [hs]⟩
  cases step_kind hstep with
  | quiet hp hc hr hw ht hs => exact .inl (hs hnew)
  | reset hp hc hr hw ht hs => exact .inl (kept hs)
  | config v hp hc hr hw ht hs => exact .inl (kept hs)
  | beat hv hp hc hr hw ht hs => exact .inl (kept hs)
  | dropped w hb hp hc hr hw ht hs => exact .inl (kept hs)
  | illegal w why hb hd hp hc hr hw ht hs => exact .inl (kept hs)
  | accepted w i hb hd hp hc hr hw ht hs => exact .inl (kept hs)
  | token i tok hb hy hp hc hr hw ht hs => exact .inr ⟨Pcmd.sReady_eq_true.1 hy, tok, hs⟩

/-- DONE = 1 leaves no command running (R26). -/
theorem Pcmd.Inv.idle_of_done {p : Pcmd} (h : p.Inv) (hd : p.done = true) : p.mode = .idle := by
  obtain ⟨hstatus, -⟩ := h
  by_contra hm
  simp [hstatus.not_done hm] at hd

/-- Settles O43: DONE = 1 means IDLE by the invariant, where OBUF is empty and PCMD neither ready nor busy. -/
theorem doneMeansDrained : Obligations.DoneMeansDrained := by
  intro s ⟨hinv, _⟩ hread
  obtain ⟨hbusy, hdone, -, -⟩ := s.pcmd.status_bits
  have hm : s.pcmd.mode = .idle := hinv.idle_of_done (hdone.symm.trans hread)
  exact ⟨hinv.obuf_empty (by simp [hm]), Pcmd.sReady_eq_false_of_idle hm, hbusy.trans (Pcmd.busy_eq_false.2 hm)⟩

end Sys2Proof.Machine
end

section
/-! PROOF. The ports: bus errors, the placed command word, beat transfers and the host's port statements (R66, R69, R75, R91). -/

namespace Sys2Proof.Machine

/-! ### Bus errors -/

/-- The offsets with no register (R69). -/
theorem Reg.ofOffset_eq_none {off : Byte} : Reg.ofOffset off = none ↔ off.toNat % 4 ≠ 0 ∨ off.toNat > 0x1C := by
  have hlt := off.isLt
  unfold Reg.ofOffset
  simp only [← BitVec.toNat_inj]
  split_ifs <;> simp_all; omega

theorem Pcmd.busRead_of_none {p : Pcmd} {off : Byte} (h : Reg.ofOffset off = none) :
    p.busRead off = { rdata := 0, err := true } := by
  simp [Pcmd.busRead, h]

theorem Pcmd.busRead_err (p : Pcmd) (off : Byte) : (p.busRead off).err = decide (Reg.ofOffset off = none) := by
  unfold Pcmd.busRead
  cases Reg.ofOffset off <;> rfl

/-- The offsets a write answers with `reg_err = 1`: those of no register and of the read-only ones, all but CMD and CONFIG
(R24, R69). -/
theorem writeError_iff {off : Byte} :
    off.toNat % 4 ≠ 0 ∨ off.toNat > 0x1C ∨ off.toNat ∈ [0x04, 0x0C, 0x10, 0x14, 0x18, 0x1C] ↔
      off ≠ Reg.cmd.offset ∧ off ≠ Reg.config.offset := by
  simp only [List.mem_cons, List.not_mem_nil, or_false, Reg.offset, ne_eq, ← BitVec.toNat_inj, BitVec.reduceToNat]
  omega

theorem Reg.ofOffset_eq_config {off : Byte} : Reg.ofOffset off = some .config ↔ off = Reg.config.offset := by
  unfold Reg.ofOffset Reg.offset
  split_ifs <;> simp_all

/-- A write to no register or to a read-only one (R69). -/
theorem regWrite_of_error {off : Byte} {data : Word} {s : State} (hcmd : off ≠ Reg.cmd.offset)
    (hconfig : off ≠ Reg.config.offset) : regWrite off data s = .next { s with regErr := true } := by
  unfold regWrite
  split
  next hr => exact absurd (Reg.ofOffset_eq_cmd.1 hr) hcmd
  next hr => exact absurd (Reg.ofOffset_eq_config.1 hr) hconfig
  all_goals rfl

/-- A write of CMD or CONFIG answers `reg_err = 0`, whatever becomes of it (R69, R185). -/
theorem regWrite_regErr {off : Byte} {data : Word} {s t : State} (hoff : off = Reg.cmd.offset ∨ off = Reg.config.offset)
    (h : regWrite off data s = .next t) : t.regErr = false := by
  rcases hoff with rfl | rfl
  · rw [regWrite_cmd] at h
    rcases writeCmd_cases h with ⟨-, rfl⟩ | ⟨-, why, -, rfl⟩ | ⟨-, i, -, rfl⟩ <;> rfl
  · rw [regWrite_config] at h
    cases h
    rfl

/-- The answer of a write, and what a write that fails leaves as it was (R69). -/
theorem regWrite_answer {off : Byte} {data : Word} {s t : State} (h : regWrite off data s = .next t) :
    t.regErr = decide (off ≠ Reg.cmd.offset ∧ off ≠ Reg.config.offset) ∧
      (off ≠ Reg.cmd.offset ∧ off ≠ Reg.config.offset → t = { s with regErr := true }) := by
  by_cases herr : off ≠ Reg.cmd.offset ∧ off ≠ Reg.config.offset
  · have ⟨hcmd, hconfig⟩ := herr
    rw [regWrite_of_error hcmd hconfig] at h
    cases h
    simp [herr]
  · rw [regWrite_regErr (by tauto) h]
    simp [herr]

/-- Settles O28: a read fails where the offset has no register, a write at every offset but CMD's and CONFIG's, and the host's WR is
that write. -/
theorem busErrors : Obligations.BusErrors := by
  intro s off data es
  refine ⟨⟨fun hbad => Pcmd.busRead_of_none (Reg.ofOffset_eq_none.2 hbad), fun hgood => ?_, fun he => ?_⟩, fun he hbad => ?_,
    fun hw t hstep => ?_⟩
  · rw [Pcmd.busRead_err, decide_eq_false_iff_not, Reg.ofOffset_eq_none]
    exact hgood
  · rw [step_listed he, ← decide_eq_decide.2 (Reg.ofOffset_eq_none (off := off)), ← Pcmd.busRead_err s.pcmd]
    rfl
  · obtain ⟨hcmd, hconfig⟩ := writeError_iff.1 hbad
    rw [step_listed he]
    exact regWrite_of_error hcmd hconfig
  · rcases step_of_nextWrite hw with h | h
    all_goals
      obtain ⟨herr, hkept⟩ := regWrite_answer (h.symm.trans hstep)
      refine ⟨herr.trans (decide_eq_decide.2 writeError_iff.symm), fun hbad => ?_⟩
      rw [hkept (writeError_iff.1 hbad)]
      exact ⟨rfl, rfl, rfl, rfl⟩

/-! ### The placed command word -/

/-- A command's word decodes to it (R80, R82). -/
theorem decode_encode (i : Instr) : decode (encode i) = .command i := by
  cases i <;> decide

/-- Settles O8: the placed step is a CMD write at IDLE of the word that decodes to `i`. -/
theorem placedWordRunsNext : Obligations.PlacedWordRunsNext := by
  intro s i
  have hword : BitVec.ofNat 32 ((encode i).toNat % 2 ^ 32) = encode i := by
    rw [Nat.mod_eq_of_lt (encode i).isLt, BitVec.ofNat_toNat, BitVec.setWidth_eq]
  have hplaced : (s.withFetchWord 32 (encode i).toNat).events = .regWrite Reg.cmd.offset (encode i) :: s.events := by
    rw [State.withFetchWord, State.issueNext, hword]
  rw [step_listed hplaced, eventStep, regWrite_cmd]
  exact writeCmd_command rfl (decode_encode i)

/-! ### Beats and the host's port statements -/

/-- Settles O30: a listed transfer is `takeBeat`, by whether a beat is on offer. -/
theorem beatTransferClearsObuf : Obligations.BeatTransferClearsObuf := by
  intro s es he
  rw [step_listed he]
  exact ⟨fun hv => congrArg _ (takeBeat_of_valid (s := { s with events := es }) hv),
    fun hv => congrArg _ (takeBeat_of_empty (s := { s with events := es }) hv)⟩

/-- A listed step of the host executes its statement, the host already past it (R91). -/
theorem step_host {s : State} {st : HostStmt} {es : List Event} (he : s.events = .host :: es) (hf : s.host.fetch = some st) :
    step s = hostExec st { s with events := es, host := s.host.advance } := by
  rw [step_listed he]
  exact hostStep_of_fetch (s := { s with events := es }) hf

/-- TAKE's word as a number: the data, then the width flag (R91). -/
theorem Beat.toNat_takeWord (b : Beat) : b.takeWord.toNat = b.data.toNat + 2 ^ 16 * b.wide.toNat := by
  simp only [Beat.takeWord, toNat_append_eq, BitVec.toNat_ofBool, BitVec.toNat_zero]
  omega

/-- Settles O34: each statement is its clause of `hostExec`; TAKE's two are those of `hostTake`. -/
theorem hostPortStatements : Obligations.HostPortStatements := by
  intro s n off b es he
  refine ⟨fun hf => step_host he hf, fun hf => step_host he hf, fun hf => step_host he hf, fun hf => step_host he hf,
    fun hf hv => ?_, fun hf hv => ?_⟩
  · exact (step_host he hf).trans (congrArg Host.Outcome.next (hostTake_of_empty (by exact hv)))
  · have htake := (step_host he hf).trans (congrArg Host.Outcome.next (hostTake_of_valid (n := n) (by exact hv)))
    refine ⟨s.pcmd.obuf.beat.takeWord, s.pcmd.obuf.beat.toNat_takeWord, fun _ => htake, ?_⟩
    rintro rfl
    exact ⟨_, .inr rfl, htake⟩

end Sys2Proof.Machine
end

section
/-! PROOF. The command words: what decodes to what, and what an illegal word does (R80 to R84). -/

namespace Sys2Proof.Machine

/-! ### Decode and encode -/

/-- A word in format C with a command's opcode decodes to the command (R82). -/
theorem decode_of_fields {w : Word} {i : Instr} (hrsv : rsvField w = 0) (hop : opField w = opcode i) :
    decode w = .command i := by
  cases i <;> simp [decode, hrsv, hop, opcode]

/-- The words that decode to a command are the three words of the table (R81, R82). -/
theorem decode_eq_command {w : Word} {i : Instr} : decode w = .command i ↔ w = encode i :=
  ⟨eq_encode_of_decode, fun h => h ▸ decode_encode i⟩

/-- The words that are rejected are all the others (R84). -/
theorem decode_eq_illegal {w : Word} : (∃ why, decode w = .illegal why) ↔ ∀ i : Instr, w ≠ encode i := by
  constructor
  · rintro ⟨why, hwhy⟩ i rfl
    rw [decode_encode] at hwhy
    cases hwhy
  · intro hnone
    cases hd : decode w with
    | command i => exact absurd (decode_eq_command.1 hd) (hnone i)
    | illegal why => exact ⟨why, rfl⟩

/-- A well-formed word is in format C and its opcode is a command's (R80, R81). -/
theorem fields_of_commandWordWf {w : Word} (h : commandWordWf w = true) :
    rsvField w = 0 ∧ ∃ i : Instr, opField w = opcode i := by
  simp only [commandWordWf, Bool.and_eq_true, Bool.or_eq_true, beq_iff_eq] at h
  obtain ⟨hrsv, (hop | hop) | hop⟩ := h
  · exact ⟨hrsv, .deinterleave, hop⟩
  · exact ⟨hrsv, .readU16, hop⟩
  · exact ⟨hrsv, .readU32, hop⟩

/-- The shape of a command's word, for all commands at once (R80, R81). -/
theorem encodingShape (i : Instr) : Laws.EncodingShape.Statement i := by
  cases i with
  | deinterleave => exact Laws.EncodingShape.deinterleave
  | readU16 => exact Laws.EncodingShape.readU16
  | readU32 => exact Laws.EncodingShape.readU32

/-- In the table's numbering a command's word is its value (R80, R10). -/
theorem decodeTableWord_encode (i : Instr) : decodeTableWord 32 (encode i).toNat = some i := by
  have hfits : 32 ≤ 32 ∧ (encode i).toNat < 2 ^ 32 := ⟨le_rfl, (encode i).isLt⟩
  rw [decodeTableWord, if_pos hfits, BitVec.ofNat_toNat, BitVec.setWidth_eq, decode_encode]

/-- Settles O2: a command's word has format C's shape, and a word of that shape has the opcode of a command, which `decode` reads. -/
theorem decodeEncodeAgree : Obligations.DecodeEncodeAgree := by
  refine ⟨fun i _ => ?_, fun w i hd => (decode_eq_command.1 hd).symm, fun w hw => ?_⟩
  · obtain ⟨-, -, hwf⟩ := encodingShape i
    exact ⟨hwf, decode_encode i, decodeTableWord_encode i⟩
  · obtain ⟨hrsv, i, hop⟩ := fields_of_commandWordWf hw
    exact ⟨i, decode_of_fields hrsv hop⟩

/-- Settles O1: the three words are those of the three commands. -/
theorem tableWordsDecode : Obligations.TableWordsDecode :=
  ⟨decode_encode .deinterleave, decode_encode .readU16, decode_encode .readU32⟩

/-- Settles O3: a rejected word is no command's word, and there are three commands. -/
theorem otherWordsAreIllegal : Obligations.OtherWordsAreIllegal := by
  intro w
  rw [decode_eq_illegal]
  constructor
  · intro hnone
    exact ⟨hnone .deinterleave, hnone .readU16, hnone .readU32⟩
  · rintro ⟨h1, h2, h3⟩ i
    cases i with
    | deinterleave => exact h1
    | readU16 => exact h2
    | readU32 => exact h3

/-! ### The write of a word to CMD -/

/-- An unassigned OP or a nonzero RSV makes a word illegal (R83). -/
theorem decode_illegal_of_fields {w : Word} (h : w.toNat % 8 ∈ [0, 4, 5, 6, 7] ∨ w.toNat / 8 ≠ 0) :
    ∃ why, decode w = .illegal why := by
  refine decode_eq_illegal.2 fun i hw => ?_
  subst hw
  cases i <;> revert h <;> decide

/-- A listed write of CMD, by any master (R184). -/
theorem step_cmdWrite {s : State} {w : Word} {es : List Event} (he : s.events = .regWrite 0x00 w :: es) :
    step s = writeCmd w { s with events := es, regErr := false } :=
  (step_listed he).trans (regWrite_cmd w { s with events := es })

/-- Settles O4: the word is rejected, so the write is `acceptIllegal`, whose assignments are those listed. -/
theorem illegalWordFinishesAtOnce : Obligations.IllegalWordFinishesAtOnce := by
  intro s w es he hm hfields
  obtain ⟨why, hd⟩ := decode_illegal_of_fields hfields
  rw [step_cmdWrite he]
  exact writeCmd_illegal hm hd

/-- Settles O5: the listed write is a write of CMD at IDLE. -/
theorem stepRunsDecodedCommand : Obligations.StepRunsDecodedCommand := by
  intro s w i es he hm hd
  rw [step_cmdWrite he]
  exact writeCmd_command hm hd

/-- Settles O6: the host's WR is the register write, the host past its statement, and so a write of CMD at IDLE. -/
theorem hostCommandWriteRunsDecodedCommand : Obligations.HostCommandWriteRunsDecodedCommand := by
  intro s st w i es he hf hw hm hd
  calc step s = hostStep { s with events := es } := step_listed he
    _ = regWrite 0x00 w { s with events := es, host := s.host.advance } :=
      hostStep_of_write (s := { s with events := es }) hf hw
    _ = writeCmd w { s with events := es, regErr := false, host := s.host.advance } := regWrite_cmd w _
    _ = exec i { s with events := es, regErr := false, host := s.host.advance } := writeCmd_command hm hd

end Sys2Proof.Machine
end

section
/-! PROOF. The host's own statements and the pseudos (R91, R92, R180). -/

namespace Sys2Proof.Machine

/-! ### OUT -/

/-- Settles O35: OUT is `HostAgent.output`, and an append to one list leaves what the others hold (log 16). -/
theorem hostOutAppends : Obligations.HostOutAppends := by
  intro s k n es he hf hwf
  exact ⟨_, step_host he hf, rfl, rfl, rfl, OutLists.at_append_self hwf, fun j hj => OutLists.at_append_other hj⟩

/-! ### FAIL ERR -/

/-- A code names its error, but for the host's own error, which PCMD never raises (R180, R181). -/
theorem ErrName.ofStatus_code {e : ErrName} (h : e ≠ .invalidFormat) : ErrName.ofStatus e.code = some e := by
  cases e with
  | invalidFormat => exact absurd rfl h
  | _ => decide

/-- The codes that name no error (R180). -/
theorem ErrName.ofStatus_eq_none {code : BitVec 4} : ErrName.ofStatus code = Option.none ↔ code = 2 ∨ 7 ≤ code.toNat := by
  revert code; decide

/-- FAIL ERR where STATUS.ERR names an error (R91). -/
theorem hostExec_failErr_of_some {s : State} {e : ErrName} (h : ErrName.ofStatus s.pcmd.err = some e) :
    hostExec .failErr s = .next { s with host := { s.host with status := .failed e } } := by
  simp [hostExec, h]

/-- FAIL ERR where it names none (log 9). -/
theorem hostExec_failErr_of_none {s : State} (h : ErrName.ofStatus s.pcmd.err = none) :
    hostExec .failErr s = .refused .errorCodeNeverProduced := by
  simp [hostExec, h]

/-- Settles O36: FAIL ERR goes by the error that STATUS.ERR names, and refuses where it names none (log 9). -/
theorem failErrNamesStatusError : Obligations.FailErrNamesStatusError := by
  intro s es he hf
  constructor
  · intro e hne herr
    have hname : ErrName.ofStatus s.pcmd.err = some e := by rw [herr, ErrName.ofStatus_code hne]
    exact (step_host he hf).trans (hostExec_failErr_of_some hname)
  · intro hcode
    exact (step_host he hf).trans (hostExec_failErr_of_none (ErrName.ofStatus_eq_none.2 hcode))

/-! ### The statements that compute, branch, store and stop -/

/-- Settles O33: each statement is its clause of `hostExec` on the state past it; BNE's is stated with its branches exchanged. -/
theorem hostStatementEffects : Obligations.HostStatementEffects := by
  intro s n m v l f e es he
  refine ⟨step_host he, step_host he, step_host he, step_host he, fun hf => ?bne, step_host he, step_host he, step_host he,
    step_host he⟩
  case bne =>
    rw [step_host he hf, hostExec]
    simp only [ne_eq, ite_not]
    rfl

/-! ### The pseudos -/

/-- The CONFIG word has the bit depth high and the channel count low (R86). -/
theorem configWord_eq_append (b c : Half) : configWord b c = b ++ c := by
  rw [BitVec.append_def, BitVec.shiftLeftZeroExtend_eq]
  rfl

/-- A tag's word is its bytes, the first one least significant (R92, R60). -/
theorem toNat_le32 (t0 t1 t2 t3 : Byte) : (le32 t0 t1 t2 t3).toNat = leValue [t0, t1, t2, t3] := by
  simp only [le32, toNat_append_eq, leValue]
  omega

/-- Settles O37: the expansions are R92's table, with DEINT's CONFIG word and the tag words given their values. -/
theorem pseudosExpand : Obligations.PseudosExpand := by
  refine ⟨fun c b base => ?deint, fun _ => ⟨rfl, rfl, rfl⟩, fun _ _ => rfl, fun _ _ _ _ _ _ => rfl, fun _ _ _ => rfl,
    toNat_le32, by decide, by decide, by decide, by decide⟩
  case deint =>
    rw [← configWord_eq_append]
    rfl

end Sys2Proof.Machine
end

section
/-! PROOF. No step stops from a state that meets the invariant (R82, R142, R188; logs 6 and 9). -/

namespace Sys2Proof.Machine

/-- A command's token step stops only where the cursor has no modulus, and a DEINTERLEAVE that runs has channels (R142; log 6). -/
theorem Pcmd.Inv.tokenOf_next {p : Pcmd} {i : Instr} (h : p.Inv) (hr : p.running = some i) (tok : Token) :
    ∃ q, tokenOf i tok (p.countToken tok) = .next q := by
  obtain ⟨-, -, -, -, hdeint, -⟩ := h
  cases i with
  | deinterleave =>
    obtain ⟨hchannels, -⟩ := hdeint (Pcmd.running_eq_deinterleave.1 hr)
    exact deinterleaveToken_next (by simpa using hchannels)
  | readU16 => exact readToken_next tok _
  | readU32 => exact readToken_next tok _

/-- A running command takes its token or holds. -/
theorem consume_next {f : Token → Pcmd → Host.Outcome Pcmd Fault Refusal} {s : State}
    (hf : ∀ tok, ∃ q, f tok (s.pcmd.countToken tok) = .next q) : ∃ t, consume f s = .next t := by
  cases hready : s.pcmd.sReady with
  | false => exact ⟨s, consume_hold (.inl hready)⟩
  | true =>
    cases hstream : s.stream with
    | nil => exact ⟨s, consume_hold (.inr hstream)⟩
    | cons tok ts =>
      obtain ⟨q, hq⟩ := hf (Token.ofRaw tok)
      rw [consume_take hready hstream, hq]
      exact ⟨_, rfl⟩

theorem pcmdStep_next {s : State} (h : s.pcmd.Inv) : ∃ t, pcmdStep s = .next t := by
  cases hr : s.pcmd.running with
  | none => exact ⟨s, by simp [pcmdStep, hr]⟩
  | some i =>
    rw [pcmdStep_running hr, exec_running hr]
    exact consume_next (h.tokenOf_next hr)

/-- A host statement stops only at FAIL ERR, on a code that names no error (R180; log 9). -/
theorem hostExec_next {st : HostStmt} {s : State} (h : (ErrName.ofStatus s.pcmd.err).isSome = true) :
    ∃ t, hostExec st s = .next t := by
  cases st with
  | wrImm off v => exact regWrite_next off v s
  | wrVar off n => exact regWrite_next off _ s
  | failErr =>
    obtain ⟨e, he⟩ := Option.isSome_iff_exists.1 h
    exact ⟨_, hostExec_failErr_of_some he⟩
  | _ => exact ⟨_, rfl⟩

theorem hostStep_next {s : State} (h : (ErrName.ofStatus s.pcmd.err).isSome = true) : ∃ t, hostStep s = .next t := by
  cases hf : s.host.fetch with
  | none => exact ⟨s, by simp [hostStep, hf]⟩
  | some st =>
    rw [hostStep_of_fetch hf]
    exact hostExec_next h

/-- Settles O40: only PCMD's own step and the host's can stop at all, and the invariant rules out where each does (logs 6, 9). -/
theorem invariantStatesNeverStop : Obligations.InvariantStatesNeverStop := by
  intro s ⟨hinv, _⟩
  have ⟨⟨_, _, herr, _⟩, _⟩ := hinv
  cases he : s.events with
  | nil =>
    rw [step_unlisted he, unlistedStep]
    split
    · exact pcmdStep_next hinv
    · exact hostStep_next herr
  | cons e es =>
    rw [step_listed he]
    cases e with
    | pcmd => exact pcmdStep_next (s := { s with events := es }) hinv
    | host => exact hostStep_next (s := { s with events := es }) herr
    | regWrite off data => exact regWrite_next off data _
    | _ => exact ⟨_, rfl⟩

end Sys2Proof.Machine
end

section
/-! PROOF. What READ_U16 and READ_U32 do in one step: their acceptance, a byte gathered, and a token of another kind (R110 to R115). -/

namespace Sys2Proof.Machine

/-! ### One token of a READ -/

/-- A byte before the last joins ACC (R112). -/
theorem Pcmd.readByte_of_not_last {p : Pcmd} {b : Byte} (h : p.nb + 1 ≠ p.need.count) :
    p.readByte b = { p with acc := gather p.acc p.nb b, nb := p.nb + 1 } := if_neg h

/-- The last byte joins ACC, which becomes RESULT, and the READ finishes (R112, R113). -/
theorem Pcmd.readByte_of_last {p : Pcmd} {b : Byte} (h : p.nb + 1 = p.need.count) :
    p.readByte b = { p with acc := gather p.acc p.nb b, nb := p.nb + 1, result := gather p.acc p.nb b, mode := .idle,
                            done := true, err := 0 } := if_pos h

/-- A token of kind 1, 2 or 3 is not counted and fails a READ (R88, R114). -/
theorem readToken_of_kind {t : RawToken} (h : tokenKind t ≠ 0) (p : Pcmd) :
    readToken (Token.ofRaw t) (p.countToken (Token.ofRaw t)) = .next (p.finish .truncatedInput) := by
  cases ht : Token.ofRaw t with
  | byte b => exact absurd (Token.ofRaw_eq_byte.1 ht).1 h
  | endOfInput => rfl
  | err => rfl

/-- A running READ is ready for a token (R62). -/
theorem Pcmd.sReady_of_rd {p : Pcmd} (h : p.mode = .rd) : p.sReady = true := Pcmd.sReady_eq_true.2 (.inl h)

/-- The command that runs with MODE = RD takes its tokens as a READ does (R35). -/
theorem tokenOf_of_rd {p : Pcmd} {i : Instr} (hr : p.running = some i) (hm : p.mode = .rd) : tokenOf i = readToken := by
  cases i with
  | deinterleave => rw [Pcmd.running_eq_deinterleave.1 hr] at hm; cases hm
  | readU16 => rfl
  | readU32 => rfl

/-! ### One step of a READ with a token presented -/

section
variable {i : Instr} {s : State} {ts : List RawToken} (hr : s.pcmd.running = some i) (hm : s.pcmd.mode = .rd)
include hr hm

/-- A running READ consumes the first token (R62, R112). -/
theorem exec_read_token {t : RawToken} (hs : s.stream = t :: ts) :
    exec i s = mapNext (fun p => { s with pcmd := p, stream := ts })
      (readToken (Token.ofRaw t) (s.pcmd.countToken (Token.ofRaw t))) := by
  rw [exec_running hr, consume_take (Pcmd.sReady_of_rd hm) hs, tokenOf_of_rd hr hm]

/-- A BYTE token is counted and gathered (R31, R112). -/
theorem exec_read_byte {b : Byte} (hs : s.stream = rawByte b :: ts) :
    exec i s = .next { s with pcmd := (s.pcmd.countToken (.byte b)).readByte b, stream := ts } := by
  rw [exec_read_token hr hm hs, Token.ofRaw_rawByte, readToken, mapNext_next]

/-- A BYTE token before the last leaves the READ running (R112). -/
theorem exec_read_more {b : Byte} (hs : s.stream = rawByte b :: ts) (hmore : s.pcmd.nb + 1 ≠ s.pcmd.need.count) :
    exec i s = .next { s with
      stream := ts,
      pcmd := { s.pcmd with
        byteCount := s.pcmd.byteCount + 1, acc := gather s.pcmd.acc s.pcmd.nb b, nb := s.pcmd.nb + 1 } } := by
  rw [exec_read_byte hr hm hs, Pcmd.readByte_of_not_last (by simpa using hmore)]
  rfl

/-- The last BYTE token finishes the READ and sets RESULT (R112, R113). -/
theorem exec_read_last {b : Byte} (hs : s.stream = rawByte b :: ts) (hlast : s.pcmd.nb + 1 = s.pcmd.need.count) :
    exec i s = .next { s with
      stream := ts,
      pcmd := { s.pcmd with
        byteCount := s.pcmd.byteCount + 1, acc := gather s.pcmd.acc s.pcmd.nb b, nb := s.pcmd.nb + 1,
        result := gather s.pcmd.acc s.pcmd.nb b, mode := .idle, done := true, err := 0 } } := by
  rw [exec_read_byte hr hm hs, Pcmd.readByte_of_last (by simpa using hlast)]
  rfl

/-- A token of another kind is consumed and fails the READ (R114). -/
theorem exec_read_other {t : RawToken} (hs : s.stream = t :: ts) (ht : tokenKind t ≠ 0) :
    exec i s = .next { s with stream := ts, pcmd := { s.pcmd with mode := .idle, done := true, err := 1 } } := by
  rw [exec_read_token hr hm hs, readToken_of_kind ht]
  rfl

end

/-! ### The obligations -/

/-- Settles O10: at IDLE a command is accepted, and a READ's acceptance part is `startRead`. -/
theorem readsAreAccepted : Obligations.ReadsAreAccepted :=
  fun _ hm => ⟨exec_idle hm, exec_idle hm⟩

/-- Settles O13: the byte is gathered at place NB, and NEED says whether it is the last. -/
theorem readStepGathersByte : Obligations.ReadStepGathersByte := by
  intro s i n b ts hm hi hs hlt hacc
  obtain ⟨hr, rfl⟩ : s.pcmd.running = some i ∧ s.pcmd.need.count = n := by
    rcases hi with ⟨rfl, hneed, rfl⟩ | ⟨rfl, hneed, rfl⟩
    · exact ⟨Pcmd.running_eq_readU16.2 ⟨hm, hneed⟩, congrArg Need.count hneed⟩
    · exact ⟨Pcmd.running_eq_readU32.2 ⟨hm, hneed⟩, congrArg Need.count hneed⟩
  have hplace : s.pcmd.nb < 4 := hlt.trans_le s.pcmd.need.count_le
  exact ⟨gather s.pcmd.acc s.pcmd.nb b, toNat_gather hplace hacc, fun hmore => exec_read_more hr hm hs hmore.ne,
    exec_read_last hr hm hs⟩

/-- Settles O14: kinds 1, 2 and 3 are no byte, and a READ fails on all three alike. -/
theorem readFailsOnOtherToken : Obligations.ReadFailsOnOtherToken :=
  fun _ _ _ _ hm hr hs ht => exec_read_other hr hm hs ht

end Sys2Proof.Machine
end

section
/-! PROOF. The frame of the READs, and that they do not consult CONFIG (R112, R116). -/

namespace Sys2Proof.Machine

/-! ### What a READ leaves as it was -/

/-- What a READ's acceptance leaves as it was (R112, R184). -/
theorem acceptRead_frame {i : Instr} (hi : i = .readU16 ∨ i = .readU32) (w : Word) (p : Pcmd) :
    (startOf i (p.acceptWord w)).lconfig = p.lconfig ∧ (startOf i (p.acceptWord w)).res = p.res ∧
      (startOf i (p.acceptWord w)).config = p.config ∧ (startOf i (p.acceptWord w)).obuf = p.obuf ∧
      (startOf i (p.acceptWord w)).result = p.result := by
  rcases hi with rfl | rfl <;> simp [startOf]

/-- What a token of a READ leaves as it was (R112, R116). -/
theorem readToken_frame {tok : Token} {p q : Pcmd} (h : readToken tok p = .next q) :
    q.lconfig = p.lconfig ∧ q.res = p.res ∧ q.config = p.config ∧ q.obuf = p.obuf ∧ q.cmd = p.cmd ∧ q.op = p.op ∧
      q.cur = p.cur ∧ q.pend = p.pend ∧ q.low = p.low ∧ q.need = p.need := by
  rcases readToken_cases h with ⟨b, -, -, rfl⟩ | ⟨b, -, -, rfl⟩ | ⟨-, rfl⟩ <;> simp

/-- A READ's token step is `readToken`, for both of them (R110, R111). -/
theorem tokenOf_read {i : Instr} (hi : i = .readU16 ∨ i = .readU32) : tokenOf i = readToken := by
  rcases hi with rfl | rfl <;> rfl

/-! ### CONFIG is not consulted -/

/-- PCMD with `v` in CONFIG. -/
def Pcmd.withConfig (v : Word) (p : Pcmd) : Pcmd := { p with config := v }

/-- The machine with `v` in CONFIG. -/
def State.withConfig (v : Word) (s : State) : State := { s with pcmd := s.pcmd.withConfig v }

/-- `withConfig` is what a CONFIG write does, beside its answer (R28). -/
theorem regWrite_config_withConfig (v : Word) (s : State) :
    regWrite Reg.config.offset v s = .next (({ s with regErr := false } : State).withConfig v) :=
  regWrite_config v s

/-- Counting a token does not consult CONFIG. -/
theorem Pcmd.countToken_withConfig (tok : Token) (v : Word) (p : Pcmd) :
    (p.withConfig v).countToken tok = (p.countToken tok).withConfig v := by
  cases tok <;> rfl

/-- A READ's token step does not consult CONFIG (R116). -/
theorem readToken_withConfig (tok : Token) (v : Word) (p : Pcmd) :
    readToken tok (p.withConfig v) = mapNext (Pcmd.withConfig v) (readToken tok p) := by
  cases tok with
  | byte b =>
    simp only [readToken, mapNext_next]
    by_cases hlast : p.nb + 1 = p.need.count
    · rw [Pcmd.readByte_of_last hlast, Pcmd.readByte_of_last (p := p.withConfig v) hlast]
      rfl
    · rw [Pcmd.readByte_of_not_last hlast, Pcmd.readByte_of_not_last (p := p.withConfig v) hlast]
      rfl
  | endOfInput => rfl
  | err => rfl

/-- A command whose token step does not consult CONFIG does not consult it in holding or consuming. -/
theorem consume_withConfig {f : Token → Pcmd → Host.Outcome Pcmd Fault Refusal} {v : Word}
    (hf : ∀ tok p, f tok (p.withConfig v) = mapNext (Pcmd.withConfig v) (f tok p)) (s : State) :
    consume f (s.withConfig v) = mapNext (State.withConfig v) (consume f s) := by
  have hold : s.pcmd.sReady = false ∨ s.stream = [] →
      consume f (s.withConfig v) = mapNext (State.withConfig v) (consume f s) := by
    intro h
    rw [consume_hold h, consume_hold (s := s.withConfig v) h, mapNext_next]
  cases hready : s.pcmd.sReady with
  | false => exact hold (.inl hready)
  | true =>
    cases hstream : s.stream with
    | nil => exact hold (.inr hstream)
    | cons t ts =>
      rw [consume_take hready hstream, consume_take (s := s.withConfig v) hready hstream, State.withConfig,
        Pcmd.countToken_withConfig, hf]
      cases f (Token.ofRaw t) (s.pcmd.countToken (Token.ofRaw t)) <;> rfl

/-- A READ does not consult CONFIG, whatever runs (R116). -/
theorem exec_read_withConfig {i : Instr} (hi : i = .readU16 ∨ i = .readU32) (v : Word) (s : State) :
    exec i (s.withConfig v) = mapNext (State.withConfig v) (exec i s) := by
  cases hr : s.pcmd.running with
  | none =>
    have hm := Pcmd.running_eq_none.1 hr
    rw [exec_idle hm, exec_idle (s := s.withConfig v) hm]
    rcases hi with rfl | rfl <;> rfl
  | some j =>
    by_cases hji : j = i
    · subst hji
      rw [exec_running hr, exec_running (s := s.withConfig v) hr, tokenOf_read hi]
      exact consume_withConfig (fun tok p => readToken_withConfig tok v p) s
    · rw [exec_other hr hji, exec_other (s := s.withConfig v) hr hji]
      rfl

/-! ### The obligation -/

/-- Settles O20: by the four things a step of a command can do. -/
theorem readFrame : Obligations.ReadFrame := by
  refine fun s i hi => ⟨fun t h => ?_, fun v => exec_read_withConfig hi v s⟩
  rcases exec_cases h with ⟨hm, rfl⟩ | ⟨hr, rfl⟩ | ⟨hr, -, tok, ts, p, hs, hp, rfl⟩ | ⟨j, hr, -, rfl⟩
  · obtain ⟨hlconfig, hres, hconfig, hobuf, hresult⟩ := acceptRead_frame hi (encode i) s.pcmd
    exact ⟨hlconfig, hres, hconfig, hobuf, fun hne => absurd hm hne, fun _ => ⟨hresult, rfl⟩, .inl rfl, rfl, rfl, rfl, rfl⟩
  · simp
  · have hm : s.pcmd.mode ≠ .idle := fun hidle => by simp [Pcmd.running_eq_none.2 hidle] at hr
    rw [tokenOf_read hi] at hp
    have hkept := readToken_frame hp
    simp only [Pcmd.countToken_lconfig, Pcmd.countToken_res, Pcmd.countToken_config, Pcmd.countToken_obuf,
      Pcmd.countToken_cmd, Pcmd.countToken_op, Pcmd.countToken_cur, Pcmd.countToken_pend, Pcmd.countToken_low,
      Pcmd.countToken_need] at hkept
    obtain ⟨hlconfig, hres, hconfig, hobuf, hrunning⟩ := hkept
    exact ⟨hlconfig, hres, hconfig, hobuf, fun _ => hrunning, fun hidle => absurd hidle hm, .inr (by rw [hs]; rfl),
      rfl, rfl, rfl, rfl⟩
  · simp

end Sys2Proof.Machine
end

section
/-! PROOF. A whole READ, from its acceptance to its last byte, its failure or its hold (R117, R118; logs 2, 3 and 5). -/

namespace Sys2Proof.Machine

/-! ### The READs among the commands -/

/-- Command `i` is a READ of `n` bytes (R110, R111). -/
def Instr.Reads (i : Instr) (n : Nat) : Prop := i = .readU16 ∧ n = 2 ∨ i = .readU32 ∧ n = 4

/-- While a READ of `n` bytes runs, MODE is RD and NEED is `n` (R35). -/
theorem Instr.Reads.need_of_running {i : Instr} {n : Nat} {p : Pcmd} (hi : Instr.Reads i n) (hr : p.running = some i) :
    p.mode = .rd ∧ p.need.count = n := by
  rcases hi with ⟨rfl, rfl⟩ | ⟨rfl, rfl⟩
  · obtain ⟨hm, hneed⟩ := Pcmd.running_eq_readU16.1 hr
    exact ⟨hm, congrArg Need.count hneed⟩
  · obtain ⟨hm, hneed⟩ := Pcmd.running_eq_readU32.1 hr
    exact ⟨hm, congrArg Need.count hneed⟩

/-- A READ is of at least one byte and at most four. -/
theorem Instr.Reads.pos_le_four {i : Instr} {n : Nat} (hi : Instr.Reads i n) : 0 < n ∧ n ≤ 4 := by
  rcases hi with ⟨-, rfl⟩ | ⟨-, rfl⟩ <;> decide

/-! ### A READ part of the way -/

/-- READ `i`, accepted in state `s₀`, has gathered the bytes `xs` and runs on, with the tokens `rest` presented and no step listed. -/
structure State.HasGathered (i : Instr) (s s₀ : State) (xs : List Byte) (rest : List RawToken) : Prop where
  running : s.pcmd.running = some i
  nb : s.pcmd.nb = xs.length
  acc : s.pcmd.acc.toNat = leValue xs
  byteCount : s.pcmd.byteCount = BitVec.ofNat 32 xs.length
  done : s.pcmd.done = false
  result : s.pcmd.result = s₀.pcmd.result
  stream : s.stream = rest
  host : s.host = s₀.host
  events : s.events = []

/-- The acceptance of a READ gathers nothing (R112, R184). -/
theorem step_accept_hasGathered {i : Instr} {n : Nat} {s : State} (hi : Instr.Reads i n) (hm : s.pcmd.mode = .idle)
    (he : s.events = [.regWrite 0x00 (encode i)]) : ∃ t, step s = .next t ∧ t.HasGathered i s [] s.stream := by
  rw [stepRunsDecodedCommand s (encode i) i [] he hm (decode_encode i),
    exec_idle (s := { s with events := [], regErr := false }) hm]
  rcases hi with ⟨rfl, -⟩ | ⟨rfl, -⟩ <;> exact ⟨_, rfl, rfl, rfl, rfl, rfl, rfl, rfl, rfl, rfl, rfl⟩

namespace State.HasGathered

variable {i : Instr} {n : Nat} {s₀ s : State} {xs : List Byte} {ts : List RawToken} {b : Byte}

/-- With a token presented the next step is the READ's own (R14; log 2). -/
theorem step_eq_exec {t : RawToken} (h : s.HasGathered i s₀ xs (t :: ts)) (hm : s.pcmd.mode = .rd) : step s = exec i s :=
  (stepRunsRunningCommand s i h.running).2 h.events (Pcmd.sReady_of_rd hm) (by simp [h.stream])

/-- One more byte gathered keeps ACC the little-endian value of the bytes (R117). -/
theorem toNat_gather_eq (h : s.HasGathered i s₀ xs ts) (hlt : xs.length < 4) :
    (gather s.pcmd.acc s.pcmd.nb b).toNat = leValue (xs ++ [b]) := by
  have hacc : s.pcmd.acc.toNat < 256 ^ s.pcmd.nb := by rw [h.acc, h.nb]; exact leValue_lt xs
  rw [toNat_gather (h.nb ▸ hlt) hacc, h.acc, h.nb, leValue_append_singleton]

/-- BYTE_COUNT counts one more byte (R31). -/
theorem byteCount_succ (h : s.HasGathered i s₀ xs ts) : s.pcmd.byteCount + 1 = BitVec.ofNat 32 (xs.length + 1) := by
  rw [h.byteCount, BitVec.ofNat_add]
  rfl

/-- A byte before the last is gathered (R112). -/
theorem byte (h : s.HasGathered i s₀ xs (rawByte b :: ts)) (hi : Instr.Reads i n) (hlt : xs.length + 1 < n) :
    ∃ t, step s = .next t ∧ t.HasGathered i s₀ (xs ++ [b]) ts := by
  obtain ⟨hm, hneed⟩ := hi.need_of_running h.running
  obtain ⟨-, hle⟩ := hi.pos_le_four
  refine ⟨_, (h.step_eq_exec hm).trans (exec_read_more h.running hm h.stream (by rw [h.nb, hneed]; exact hlt.ne)), ?_⟩
  exact
    { running := h.running
      nb := by simp [h.nb]
      acc := h.toNat_gather_eq (by omega)
      byteCount := by simpa using h.byteCount_succ
      done := h.done
      result := h.result
      stream := rfl
      host := h.host
      events := h.events }

/-- Bytes before the last are gathered one a step (R112). -/
theorem bytes {ys : List Byte} (h : s.HasGathered i s₀ xs (ys.map rawByte ++ ts)) (hi : Instr.Reads i n)
    (hlt : xs.length + ys.length < n) : ∃ t, runSteps ys.length s = some t ∧ t.HasGathered i s₀ (xs ++ ys) ts := by
  induction ys generalizing s xs with
  | nil => exact ⟨s, rfl, by simpa using h⟩
  | cons y ys ih =>
    rw [List.length_cons] at hlt
    obtain ⟨u, hstep, hu⟩ := h.byte hi (by omega)
    obtain ⟨t, hrun, ht⟩ := ih hu (by simp; omega)
    exact ⟨t, (runSteps_succ hstep).trans hrun, by simpa using ht⟩

/-- The last byte finishes the READ, with RESULT the little-endian value (R113, R117). -/
theorem last (h : s.HasGathered i s₀ xs (rawByte b :: ts)) (hi : Instr.Reads i n) (hn : xs.length + 1 = n) :
    ∃ t, step s = .next t ∧ t.stream = ts ∧ t.pcmd.mode = .idle ∧ t.pcmd.done = true ∧ t.pcmd.err = 0 ∧
      t.pcmd.result.toNat = leValue (xs ++ [b]) ∧ t.pcmd.byteCount.toNat = n := by
  obtain ⟨hm, hneed⟩ := hi.need_of_running h.running
  obtain ⟨-, hle⟩ := hi.pos_le_four
  refine ⟨_, (h.step_eq_exec hm).trans (exec_read_last h.running hm h.stream (by rw [h.nb, hneed, hn])), rfl, rfl, rfl, rfl,
    h.toNat_gather_eq (by omega), ?_⟩
  simp only [h.byteCount_succ, hn, BitVec.toNat_ofNat]
  omega

/-- A token of another kind is consumed and fails the READ, RESULT as before (R114, R115). -/
theorem other {t : RawToken} (h : s.HasGathered i s₀ xs (t :: ts)) (hi : Instr.Reads i n) (hlt : xs.length < n)
    (ht : tokenKind t ≠ 0) :
    ∃ u, step s = .next u ∧ u.stream = ts ∧ u.pcmd.mode = .idle ∧ u.pcmd.done = true ∧ u.pcmd.err = 1 ∧
      u.pcmd.result = s₀.pcmd.result ∧ u.pcmd.byteCount.toNat = xs.length := by
  obtain ⟨hm, -⟩ := hi.need_of_running h.running
  obtain ⟨-, hle⟩ := hi.pos_le_four
  refine ⟨_, (h.step_eq_exec hm).trans (exec_read_other h.running hm h.stream ht), rfl, rfl, rfl, rfl, h.result, ?_⟩
  simp only [h.byteCount, BitVec.toNat_ofNat]
  omega

/-- With no token presented and no statement of the host left the READ holds (R64; logs 3 and 5). -/
theorem hold (h : s.HasGathered i s₀ xs []) (hf : s₀.host.fetch = none) : step s = .next s := by
  have hdisabled : ¬ s.tokenEnabled = true := fun henabled => (State.tokenEnabled_iff.1 henabled).2 h.stream
  rw [step_unlisted h.events, unlistedStep, if_neg hdisabled, hostStep, h.host, hf]

end State.HasGathered

/-! ### The run from the acceptance -/

/-- A step that changes nothing may be repeated without end. -/
theorem runSteps_of_fixed {s : State} (h : step s = .next s) (k : Nat) : runSteps k s = some s := by
  induction k with
  | zero => rfl
  | succ k ih => rw [runSteps_succ h, ih]

/-- Accepted with fewer bytes than it needs in front, a READ gathers them all (R112). -/
theorem run_hasGathered {i : Instr} {n : Nat} {s : State} {xs : List Byte} {rest : List RawToken} (hi : Instr.Reads i n)
    (hm : s.pcmd.mode = .idle) (he : s.events = [.regWrite 0x00 (encode i)]) (hs : s.stream = xs.map rawByte ++ rest)
    (hlt : xs.length < n) :
    ∃ t, t.HasGathered i s xs rest ∧ ∀ k, runSteps (1 + xs.length + k) s = runSteps k t := by
  obtain ⟨u, hstep, hu⟩ := step_accept_hasGathered hi hm he
  rw [hs] at hu
  obtain ⟨t, hrun, ht⟩ := hu.bytes hi (by simpa using hlt)
  refine ⟨t, by simpa using ht, fun k => ?_⟩
  rw [Nat.add_assoc, Nat.add_comm 1, runSteps_succ hstep, runSteps_add, hrun, Option.bind_some]

/-! ### The obligation -/

/-- Settles O51: the READ gathers the bytes before its last, and what comes next finishes it, fails it or leaves it to hold. -/
theorem readSummary : Obligations.ReadSummary := by
  intro i n hi s bs rest hm he hs
  obtain ⟨hpos, -⟩ := Instr.Reads.pos_le_four hi
  refine ⟨fun hlen => ?done, fun tok ts hlt hrest hkind => ?failed, fun hlt hrest hfetch => ?held⟩
  case done =>
    obtain ⟨xs, b, rfl⟩ : ∃ xs b, bs = xs ++ [b] :=
      (List.eq_nil_or_concat' bs).resolve_left (List.ne_nil_of_length_pos (hlen ▸ hpos))
    rw [List.length_append, List.length_singleton] at hlen
    have hstream : s.stream = xs.map rawByte ++ (rawByte b :: rest) := by simpa using hs
    obtain ⟨u, hu, hrun⟩ := run_hasGathered hi hm he hstream (by omega)
    obtain ⟨t, hstep, hts, hmode, hdone, herr, hresult, hcount⟩ := hu.last hi hlen
    have hbound : leValue (xs ++ [b]) < 2 ^ (8 * n) := by
      have h := leValue_lt (xs ++ [b])
      rwa [List.length_append, List.length_singleton, hlen, show 256 = 2 ^ 8 by norm_num, ← pow_mul] at h
    refine ⟨t, ?_, hts, hmode, hdone, herr, hresult, hbound, hcount⟩
    rw [← hlen, ← Nat.add_assoc, hrun, runSteps_succ hstep, runSteps]
  case failed =>
    obtain ⟨u, hu, hrun⟩ := run_hasGathered hi hm he hs hlt
    subst hrest
    obtain ⟨t, hstep, hfailed⟩ := hu.other hi hlt hkind
    exact ⟨t, by rw [hrun, runSteps_succ hstep, runSteps], hfailed⟩
  case held =>
    obtain ⟨t, ht, hrun⟩ := run_hasGathered hi hm he hs hlt
    subst hrest
    obtain ⟨hrd, -⟩ := Instr.Reads.need_of_running hi ht.running
    exact ⟨t, hrd, ht.done, ht.result, fun k => (hrun k).trans (runSteps_of_fixed (ht.hold hfetch) k)⟩

end Sys2Proof.Machine
end

section
/-! PROOF. The acceptance of DEINTERLEAVE, with its start checks, and the checks of a CMD write in order (R140 to R142, R191). -/

namespace Sys2Proof.Machine

/-! ### The acceptance part -/

/-- A bit depth that is neither 8 nor 16 finishes at acceptance, whatever the channel count (R142). -/
theorem startDeinterleave_of_badDepth {p : Pcmd} (hb : bpsField p.config ≠ 8 ∧ bpsField p.config ≠ 16) :
    p.startDeinterleave = ({ p with lconfig := p.config, res := p.res.emptied } : Pcmd).finish .unsupportedBitDepth :=
  if_pos hb

/-- With a good bit depth, no channel finishes at acceptance (R142). -/
theorem startDeinterleave_of_noChannels {p : Pcmd} (hb : bpsField p.config = 8 ∨ bpsField p.config = 16)
    (hc : chField p.config = 0) :
    p.startDeinterleave = ({ p with lconfig := p.config, res := p.res.emptied } : Pcmd).finish .zeroChannels :=
  (if_neg (by tauto)).trans (if_pos hc)

/-- With good operands the command starts (R140). -/
theorem startDeinterleave_of_good {p : Pcmd} (hb : bpsField p.config = 8 ∨ bpsField p.config = 16)
    (hc : chField p.config ≠ 0) :
    p.startDeinterleave = { p with
      lconfig := p.config, res := ResStore.start (bpsField p.config) (chField p.config), cur := 0, pend := false, low := 0,
      mode := .deint } :=
  (if_neg (by tauto)).trans (if_neg hc)

/-- Settles O11: both start checks pass, and the accepted word and the start make the assignments listed. -/
theorem deinterleaveStarts : Obligations.DeinterleaveStarts := by
  intro s b c hm hconfig hb hc
  have hbps : bpsField s.pcmd.config = b := by rw [hconfig, bpsField_append]
  have hch : chField s.pcmd.config = c := by rw [hconfig, chField_append]
  rw [exec_idle hm, startOf, startDeinterleave_of_good (by simpa [hbps] using hb) (by simpa [hch] using hc),
    Pcmd.acceptWord_config, hbps, hch]
  rfl

/-- Settles O12: the bit depth is checked first, then the channel count, and either failure is a finish at acceptance (log 13). -/
theorem deinterleaveStartChecks : Obligations.DeinterleaveStartChecks := by
  intro s b c hm hconfig
  have hbps : bpsField s.pcmd.config = b := by rw [hconfig, bpsField_append]
  have hch : chField s.pcmd.config = c := by rw [hconfig, chField_append]
  rw [exec_idle hm, startOf]
  constructor
  · intro hb
    rw [startDeinterleave_of_badDepth (by simpa [hbps] using hb)]
    rfl
  · intro hb hc
    rw [startDeinterleave_of_noChannels (by simpa [hbps] using hb) (by simpa [hch] using hc)]
    rfl

/-! ### The checks of a CMD write -/

/-- A CMD write by any master is `writeCmd`, on a state with the same PCMD (R68, R91, R191). -/
theorem step_of_cmdWrite {s : State} {w : Word} (h : s.cmdWrite? = some w) :
    ∃ u : State, u.pcmd = s.pcmd ∧ step s = writeCmd w u := by
  have hw : s.nextWrite? = some (Reg.cmd.offset, w) := by
    unfold State.cmdWrite? at h
    split at h <;> simp_all
  rcases step_of_nextWrite hw with hs | hs <;> exact ⟨_, by rfl, hs.trans (regWrite_cmd w _)⟩

/-- Settles O50: BUSY drops the write, the word's decoding comes next, and DEINTERLEAVE's own checks last. -/
theorem commandChecksInOrder : Obligations.CommandChecksInOrder := by
  intro s t w hstep hcmd
  obtain ⟨u, hu, hwrite⟩ := step_of_cmdWrite hcmd
  rw [hwrite] at hstep
  rw [← hu]
  have accepted : ∀ i : Instr, w = encode i → u.pcmd.mode = .idle → t.pcmd = startOf i (u.pcmd.acceptWord (encode i)) := by
    rintro i rfl hm
    rw [writeCmd_command hm (decode_encode i), exec_idle hm] at hstep
    cases hstep
    rfl
  refine ⟨fun hb => ?busy, fun hm hother => ?illegal, fun hm hw h8 h16 => ?badDepth, fun hm hw hbits hch => ?noChannels,
    fun hm hw => ?read⟩
  case busy =>
    rw [writeCmd_busy hb] at hstep
    cases hstep
    rfl
  case illegal =>
    obtain ⟨why, hd⟩ := (otherWordsAreIllegal w).2 hother
    rw [writeCmd_illegal hm hd] at hstep
    cases hstep
    exact ⟨rfl, rfl⟩
  case badDepth =>
    rw [accepted .deinterleave hw hm, startOf, startDeinterleave_of_badDepth ⟨by exact h8, by exact h16⟩]
    exact ⟨rfl, rfl⟩
  case noChannels =>
    rw [accepted .deinterleave hw hm, startOf, startDeinterleave_of_noChannels (by exact hbits) (by exact hch)]
    exact ⟨rfl, rfl⟩
  case read =>
    rcases hw with hw | hw
    · rw [accepted .readU16 hw hm]
      exact ⟨rfl, rfl⟩
    · rw [accepted .readU32 hw hm]
      exact ⟨rfl, rfl⟩

end Sys2Proof.Machine
end

section
/-! PROOF. One token of a running DEINTERLEAVE (R143 to R150). -/

namespace Sys2Proof.Machine

/-- `as_s8` by the last byte that is not negative (R11). -/
theorem asS8_eq_ite (b : Byte) : asS8 b = if b.toNat ≤ 0x7F then (b.toNat : Int) else (b.toNat : Int) - 256 := by
  simp only [asS8, Nat.lt_succ_iff]

/-- A DEINTERLEAVE is ready while OBUF is empty (R62). -/
theorem Pcmd.sReady_of_deint {p : Pcmd} (hm : p.mode = .deint) (hv : p.obuf.v = false) : p.sReady = true :=
  Pcmd.sReady_eq_true.2 (.inr ⟨hm, hv⟩)

theorem Pcmd.channels_of_lconfig {p : Pcmd} {b c : Half} (h : p.lconfig = b ++ c) : p.channels = c := by
  rw [Pcmd.channels, h, chField_append]

theorem Pcmd.bits_of_lconfig {p : Pcmd} {b c : Half} (h : p.lconfig = b ++ c) : p.bits = b := by
  rw [Pcmd.bits, h, bpsField_append]

/-- With OBUF empty a running DEINTERLEAVE consumes the token in front (R62, R140). -/
theorem exec_deinterleave_token {s : State} {t : RawToken} {ts : List RawToken} (hm : s.pcmd.mode = .deint)
    (hv : s.pcmd.obuf.v = false) (hs : s.stream = t :: ts) :
    exec .deinterleave s = mapNext (fun p => { s with pcmd := p, stream := ts })
      (deinterleaveToken (Token.ofRaw t) (s.pcmd.countToken (Token.ofRaw t))) := by
  rw [exec_running (Pcmd.running_eq_deinterleave.2 hm), consume_take (Pcmd.sReady_of_deint hm hv) hs]
  rfl

/-- Settles O16: the byte is a sample at once, its value and its beat's data those of R144. -/
theorem deinterleaveByteIsSample : Obligations.DeinterleaveByteIsSample := by
  intro s x c ts hm hconfig hc hv hs
  have hbits : (s.pcmd.countToken (.byte x)).bits = 8 := Pcmd.bits_of_lconfig hconfig
  have hch : (s.pcmd.countToken (.byte x)).channels = c := Pcmd.channels_of_lconfig hconfig
  rw [exec_deinterleave_token hm hv hs, Token.ofRaw_rawByte, deinterleaveToken_byte8 hbits (hch ▸ hc), mapNext_next, hch,
    ← asS8_eq_ite]
  rfl

/-- Settles O17: PEND says which byte of the pair it is, and the second makes the word with LOW. -/
theorem deinterleavePairIsSample : Obligations.DeinterleavePairIsSample := by
  intro s x c ts hm hconfig hc hv hs
  have hbits : (s.pcmd.countToken (.byte x)).bits ≠ 8 := by
    rw [Pcmd.countToken_bits, Pcmd.bits_of_lconfig hconfig]
    decide
  have hch : (s.pcmd.countToken (.byte x)).channels = c := Pcmd.channels_of_lconfig hconfig
  rw [exec_deinterleave_token hm hv hs, Token.ofRaw_rawByte]
  constructor
  · intro hp
    rw [deinterleaveToken_first hbits hp]
    rfl
  · intro hp
    rw [deinterleaveToken_second hbits hp (hch ▸ hc), mapNext_next, hch, ← toNat_wordOfBytes, ← wordOfBytes_eq_append]
    rfl

/-- Settles O18: kind 1 is END, which `deinterleaveEnd` answers by the cursor. -/
theorem deinterleaveEndChecksFrame : Obligations.DeinterleaveEndChecksFrame := by
  intro s t ts hm hv hs hkind
  rw [exec_deinterleave_token hm hv hs, Token.ofRaw_eq_endOfInput.2 hkind, Pcmd.countToken_onEnd, deinterleaveToken,
    mapNext_next, Pcmd.deinterleaveEnd]
  constructor
  · intro hframe
    rw [if_pos hframe]
    rfl
  · intro hframe
    rw [if_neg hframe]
    rfl

/-- Settles O19: kinds 2 and 3 are ERR (R88), which raises. -/
theorem deinterleaveFailsOnErrToken : Obligations.DeinterleaveFailsOnErrToken := by
  intro s t ts hm hv hs hkind
  have herr : Token.ofRaw t = .err := by
    rw [Token.ofRaw_eq_err, tokenKind]
    rcases hkind with hk | hk <;> rw [hk] <;> decide
  rw [exec_deinterleave_token hm hv hs, herr]
  rfl

end Sys2Proof.Machine
end

section
/-! PROOF. Where the model can stop at all (R142, R180; logs 6 and 9). -/

namespace Sys2Proof.Machine

/-- A completed sample has no next cursor where there is no channel (R10; log 6). -/
theorem Pcmd.completeSample_of_noChannels {p : Pcmd} {smp : Sample} (h : p.channels = 0) :
    p.completeSample smp = .fault .cursorModuloZero := by
  rw [Pcmd.completeSample, nextCursor, if_pos h]

/-- DEINTERLEAVE's token step goes on, or faults where there is no channel (log 6). -/
theorem deinterleaveToken_next_or_fault (tok : Token) (p : Pcmd) :
    (∃ q, deinterleaveToken tok p = .next q) ∨ deinterleaveToken tok p = .fault .cursorModuloZero ∧ p.channels = 0 := by
  by_cases hc : p.channels = 0
  · cases tok with
    | byte x =>
      rw [deinterleaveToken, Pcmd.deinterleaveByte]
      split_ifs
      · exact .inr ⟨Pcmd.completeSample_of_noChannels hc, hc⟩
      · exact .inl ⟨_, rfl⟩
      · exact .inr ⟨Pcmd.completeSample_of_noChannels (p := { p with low := 0, pend := false }) hc, hc⟩
    | endOfInput => exact .inl ⟨_, rfl⟩
    | err => exact .inl ⟨_, rfl⟩
  · exact .inl (deinterleaveToken_next hc)

/-- A command whose token step goes on or faults goes on or faults, holding or consuming. -/
theorem consume_next_or_fault {f : Token → Pcmd → Host.Outcome Pcmd Fault Refusal} {s : State} {r : Fault} {P : Prop}
    (hf : ∀ tok, (∃ q, f tok (s.pcmd.countToken tok) = .next q) ∨ f tok (s.pcmd.countToken tok) = .fault r ∧ P) :
    (∃ t, consume f s = .next t) ∨ consume f s = .fault r ∧ P := by
  cases hready : s.pcmd.sReady with
  | false => exact .inl ⟨s, consume_hold (.inl hready)⟩
  | true =>
    cases hstream : s.stream with
    | nil => exact .inl ⟨s, consume_hold (.inr hstream)⟩
    | cons tok ts =>
      rw [consume_take hready hstream]
      rcases hf (Token.ofRaw tok) with ⟨q, hq⟩ | ⟨hq, hP⟩ <;> rw [hq]
      · exact .inl ⟨_, rfl⟩
      · exact .inr ⟨rfl, hP⟩

/-- PCMD's own step goes on, or faults in a DEINTERLEAVE that has no channel (log 6). -/
theorem pcmdStep_next_or_fault (s : State) :
    (∃ t, pcmdStep s = .next t) ∨
      pcmdStep s = .fault .cursorModuloZero ∧ s.pcmd.mode = .deint ∧ s.pcmd.channels = 0 := by
  cases hr : s.pcmd.running with
  | none => exact .inl ⟨s, by simp [pcmdStep, hr]⟩
  | some i =>
    rw [pcmdStep_running hr, exec_running hr]
    cases i with
    | deinterleave =>
      have hm := Pcmd.running_eq_deinterleave.1 hr
      exact consume_next_or_fault fun tok => by
        simpa [tokenOf, hm] using deinterleaveToken_next_or_fault tok (s.pcmd.countToken tok)
    | readU16 => exact .inl (consume_next fun tok => readToken_next tok _)
    | readU32 => exact .inl (consume_next fun tok => readToken_next tok _)

/-- The host's step goes on, or is refused at FAIL ERR on a code that names no error (log 9). -/
theorem hostStep_next_or_refused (s : State) :
    (∃ t, hostStep s = .next t) ∨
      hostStep s = .refused .errorCodeNeverProduced ∧ s.host.fetch = some .failErr ∧ ErrName.ofStatus s.pcmd.err = none := by
  cases he : ErrName.ofStatus s.pcmd.err with
  | some e => exact .inl (hostStep_next (by simp [he]))
  | none =>
    cases hf : s.host.fetch with
    | none => exact .inl ⟨s, by simp [hostStep, hf]⟩
    | some st =>
      rw [hostStep_of_fetch hf]
      cases st with
      | failErr => exact .inr ⟨hostExec_failErr_of_none he, rfl, rfl⟩
      | wrImm off v => exact .inl (regWrite_next off v _)
      | wrVar off n => exact .inl (regWrite_next off _ _)
      | _ => exact .inl ⟨_, rfl⟩

/-- A step goes on, or it is PCMD's own and faults, or the host's and is refused. -/
theorem step_next_or_stops (s : State) :
    (∃ t, step s = .next t) ∨
    (step s = .fault .cursorModuloZero ∧ s.pcmd.mode = .deint ∧ s.pcmd.channels = 0) ∨
    (step s = .refused .errorCodeNeverProduced ∧ s.nextStmt? = some .failErr ∧ ErrName.ofStatus s.pcmd.err = none) := by
  cases he : s.events with
  | nil =>
    rw [step_unlisted he, unlistedStep, State.nextStmt?, he]
    split_ifs
    · exact (pcmdStep_next_or_fault s).imp_right .inl
    · exact (hostStep_next_or_refused s).imp_right .inr
  | cons e es =>
    rw [step_listed he, State.nextStmt?, he]
    cases e with
    | pcmd => exact (pcmdStep_next_or_fault { s with events := es }).imp_right .inl
    | host => exact (hostStep_next_or_refused { s with events := es }).imp_right .inr
    | regWrite off data => exact .inl (regWrite_next off data _)
    | _ => exact .inl ⟨_, rfl⟩

/-- Settles O41: the two stops are those of `step_next_or_stops`, and the codes that name no error are 2 and 7 to 15. -/
theorem onlyTheseStatesStop : Obligations.OnlyTheseStatesStop := by
  intro s
  rcases step_next_or_stops s with ⟨t, ht⟩ | ⟨hfault, hm, hc⟩ | ⟨hrefused, hstmt, hcode⟩
  · simp [ht]
  · rw [hfault]
    exact ⟨fun r hr => ⟨(Host.Outcome.fault.inj hr).symm, hm, hc⟩, nofun⟩
  · rw [hrefused]
    exact ⟨nofun, fun r hr => ⟨(Host.Outcome.refused.inj hr).symm, hstmt, ErrName.ofStatus_eq_none.1 hcode⟩⟩

end Sys2Proof.Machine
end

section
/-! PROOF. What a decode holds in each channel, and END's check of the payload's length (R147, R150, R153, R155). -/

namespace Sys2Proof.Machine

/-! ### The payload by channel -/

/-- The channels of a payload of no samples. -/
theorem map_channelValues_nil (c : Nat) : (List.range c).map (fun k => channelValues c k 0 []) = List.replicate c [] := by
  simp only [channelValues, List.map_const', List.length_range]

/-- A channel has as many samples as there are sample numbers that are its own modulo the channel count (R147). -/
theorem channelValues_length_eq_count (c k : Nat) (smps : List Sample) :
    (channelValues c k 0 smps).length = Nat.count (fun i => i % c = k) smps.length := by
  induction smps using List.reverseRecOn with
  | nil => rfl
  | append_singleton smps smp ih =>
    rw [channelValues_append_singleton, List.length_append, ih, List.length_append, List.length_singleton, Nat.count_succ,
      Nat.zero_add]
    split <;> rfl

/-- Whole frames give every channel the same number of samples (R155). -/
theorem channelValues_length {c k : Nat} {smps : List Sample} (hk : k < c) (hframe : smps.length % c = 0) :
    (channelValues c k 0 smps).length = smps.length / c := by
  have hmodEq : (fun i => i % c = k) = (fun i => i ≡ k [MOD c]) := by
    funext i
    rw [Nat.ModEq, Nat.mod_eq_of_lt hk]
  rw [channelValues_length_eq_count]
  simp only [hmodEq]
  rw [Nat.count_modEq_card _ (by omega), hframe]
  simp

/-- The values of a channel by an index filter over the items the samples are made of (R147). -/
theorem channelValues_map {α : Type} (c k : Nat) (f : α → Sample) (l : List α) :
    channelValues c k 0 (l.map f) = (l.zipIdx.filter (fun xi => xi.2 % c = k)).map (fun xi => (f xi.1).value) := by
  rw [channelValues_eq_filter, List.zipIdx_map, List.filter_map, List.map_map]
  rfl

/-- The beats over the items the samples are made of (R154, R156). -/
theorem sampleBeats_map {α : Type} (c : Nat) (f : α → Sample) (l : List α) :
    sampleBeats c 0 (l.map f) =
      l.zipIdx.map (fun xi => { chan := BitVec.ofNat 16 (xi.2 % c), data := (f xi.1).data, wide := (f xi.1).wide }) := by
  rw [sampleBeats_eq_map, List.zipIdx_map, List.map_map]
  rfl

/-- Word `j` of a payload is made of its bytes `2j`, the low one, and `2j + 1` (R156). -/
theorem payloadWords_getElem? {xs : List Byte} {j : Nat} {x y : Byte} (hx : xs[2 * j]? = some x)
    (hy : xs[2 * j + 1]? = some y) :
    (payloadWords xs)[j]?.map BitVec.toNat = some (x.toNat + 256 * y.toNat) := by
  induction xs using payloadWords.induct generalizing j with
  | case1 a b rest ih =>
    cases j with
    | zero =>
      obtain rfl : a = x := by simpa using hx
      obtain rfl : b = y := by simpa using hy
      simp only [payloadWords, List.getElem?_cons_zero, Option.map_some, BitVec.toNat_ofNat]
      congr 1
      omega
    | succ j => exact ih (j := j) (by simpa [Nat.mul_add] using hx) (by simpa [Nat.mul_add] using hy)
  | case2 a => cases j <;> simp [Nat.mul_add] at hy
  | case3 => simp at hx

/-! ### What is decoded, by channel -/

/-- A channel of the decoded store. -/
theorem Pcmd.HasDecoded.chan {w : ResWidth} {c : Half} {xs : List Byte} {p : Pcmd} {k : Nat} (h : p.HasDecoded w c xs)
    (hk : k < c.toNat) : p.res.chan k = channelValues c.toNat k 0 (payloadSamples w xs) := by
  obtain ⟨-, -, -, -, -, -, -, hres⟩ := h
  simp [hres, ResStore.chan, hk]

/-- CUR counts the completed samples modulo the channel count (R146). -/
theorem Pcmd.HasDecoded.toNat_cur {w : ResWidth} {c : Half} {xs : List Byte} {p : Pcmd} (h : p.HasDecoded w c xs) :
    p.cur.toNat = xs.length / (w.bits / 8) % c.toNat := by
  obtain ⟨hc, -, -, -, hcur, -, -, -⟩ := h
  rw [hcur, toNat_ofNat_mod hc, payloadSamples_length]

/-- After whole frames every channel has its share of the samples (R155). -/
theorem Pcmd.HasDecoded.chan_length {w : ResWidth} {c : Half} {xs : List Byte} {p : Pcmd} {k : Nat} (h : p.HasDecoded w c xs)
    (hk : k < c.toNat) (hframe : xs.length % frameSize w c.toNat = 0) :
    (p.res.chan k).length = xs.length / frameSize w c.toNat := by
  have hsmps : (payloadSamples w xs).length % c.toNat = 0 := by
    rw [payloadSamples_length, ← Nat.mod_mul_right_div_self, Nat.mul_comm, ← frameSize, hframe, Nat.zero_div]
  rw [h.chan hk, channelValues_length hk hsmps, payloadSamples_length, Nat.div_div_eq_div_mul, Nat.mul_comm, frameSize]

/-- END's error as a code (R150, R153). -/
theorem endError_code (w : ResWidth) (c : Nat) (xs : List Byte) :
    (endError w c xs).code = if xs.length % frameSize w c = 0 then 0 else 4 := by
  rw [endError]
  split <;> rfl

/-- Settles O56: by O53 END leaves what is decoded and gives the error of the payload's length. -/
theorem frameMultipleLaw : Obligations.FrameMultipleLaw := by
  intro w c pre xs s t tok h hstep htok hkind
  have hend := decodeFollowsTheSource w c pre xs s t h hstep
  simp only [htok, Token.ofRaw_eq_endOfInput.2 hkind] at hend
  obtain ⟨-, -, hop, hdone, herr, hdec, -⟩ := hend
  rw [endError_code] at herr
  constructor
  · intro hframe
    have hzero : t.pcmd.err = 0 := herr.trans (if_pos hframe)
    exact ⟨hdone, hzero, Pcmd.rvalid_eq_true.2 ⟨hdone, hzero, hop⟩, fun k hk => hdec.chan_length hk hframe⟩
  · intro hframe
    have hfour : t.pcmd.err = 4 := herr.trans (if_neg hframe)
    refine ⟨hdone, hfour, Bool.eq_false_iff.2 fun hvalid => ?_⟩
    obtain ⟨-, hzero, -⟩ := Pcmd.rvalid_eq_true.1 hvalid
    exact absurd (hfour.symm.trans hzero) (by decide)

end Sys2Proof.Machine
end

section
/-! PROOF. A whole DEINTERLEAVE, from its acceptance to END, with a host that takes each beat at once (R140, R154, R156; log 19). -/

namespace Sys2Proof.Machine

/-! ### The acceptance -/

/-- With good operands and OBUF empty the acceptance starts a decode that has consumed nothing, OBUF, the queue and the steps to come as
they were (R140, R141). -/
theorem exec_deinterleave_begins {s : State} {w : ResWidth} {c : Half} (hm : s.pcmd.mode = .idle) (hv : s.pcmd.obuf.v = false)
    (hc : c ≠ 0) (hconfig : s.pcmd.config = BitVec.ofNat 16 w.bits ++ c) :
    ∃ t, exec .deinterleave s = .next t ∧ t.Decoding w c s.taken [] ∧ t.pcmd.obuf = s.pcmd.obuf ∧ t.stream = s.stream ∧
      t.events = s.events := by
  have hbits : BitVec.ofNat 16 w.bits = 8 ∨ BitVec.ofNat 16 w.bits = 16 := by cases w <;> decide
  have hwidth : (if BitVec.ofNat 16 w.bits = 8 then ResWidth.bits8 else .bits16) = w := by cases w <;> rfl
  have hnone : payloadSamples w [] = [] := by cases w <;> rfl
  refine ⟨_, deinterleaveStarts s _ c hm hconfig hbits hc, ⟨rfl, rfl, rfl, rfl, ?_, ?_⟩, rfl, rfl, rfl⟩
  · refine ⟨hc, Pcmd.channels_of_lconfig hconfig, Pcmd.bits_of_lconfig hconfig, rfl, ?_, ?_, ?_, ?_⟩
    · simp [hnone]
    · cases w <;> rfl
    · cases w <;> rfl
    · simp only [hwidth, hnone, map_channelValues_nil]
  · simp [hv, hnone, sampleBeats]

/-- Settles O52: at IDLE the invariant has OBUF empty. -/
theorem deinterleaveBeginsDecode : Obligations.DeinterleaveBeginsDecode := by
  intro s w c ⟨hinv, _⟩ hm hc hconfig
  obtain ⟨t, hexec, hdec, -, hstream, -⟩ := exec_deinterleave_begins hm (hinv.obuf_empty (by simp [hm])) hc hconfig
  exact ⟨t, hexec, hdec, hstream⟩

/-! ### The run with a prompt host -/

/-- A DEINTERLEAVE has consumed `xs` with every beat taken; the tokens `ts` are presented and the steps `es` listed. -/
structure State.Drained (w : ResWidth) (c : Half) (pre : List Beat) (xs : List Byte) (ts : List RawToken) (es : List Event)
    (s : State) : Prop where
  decoding : s.Decoding w c pre xs
  obuf : s.pcmd.obuf.v = false
  stream : s.stream = ts
  events : s.events = es

section
variable {w : ResWidth} {c : Half} {pre : List Beat} {xs : List Byte} {ts : List RawToken} {es : List Event} {s : State}

/-- The acceptance by a listed CMD write, with OBUF empty (R184, R140). -/
theorem step_begins_drained (hm : s.pcmd.mode = .idle) (hv : s.pcmd.obuf.v = false) (hc : c ≠ 0)
    (hconfig : s.pcmd.config = BitVec.ofNat 16 w.bits ++ c) (he : s.events = .regWrite 0x00 0x00000001 :: es) :
    ∃ t, step s = .next t ∧ t.Drained w c s.taken [] s.stream es := by
  obtain ⟨t, hexec, hdec, hobuf, hstream, hevents⟩ :=
    exec_deinterleave_begins (s := { s with events := es, regErr := false }) hm hv hc hconfig
  rw [stepRunsDecodedCommand s _ .deinterleave es he hm (decode_encode .deinterleave)]
  exact ⟨t, hexec, hdec, hobuf ▸ hv, hstream, hevents⟩

/-- The host's transfer leaves every beat taken (R66, log 19). -/
theorem State.Decoding.step_take (h : s.Decoding w c pre xs) (he : s.events = .take :: es) :
    ∃ t, step s = .next t ∧ t.Drained w c pre xs s.stream es := by
  obtain ⟨hbeat, hempty⟩ := beatTransferClearsObuf s es he
  cases hv : s.pcmd.obuf.v with
  | false => exact ⟨_, hempty hv, h, hv, rfl, rfl⟩
  | true => exact ⟨_, hbeat hv, h.beat hv, rfl, rfl, rfl⟩

namespace State.Drained

/-- The next step consumes the token in front (R62). -/
theorem step_token {tok : RawToken} (h : s.Drained w c pre xs (tok :: ts) (.pcmd :: es)) :
    ∃ p, deinterleaveToken (Token.ofRaw tok) (s.pcmd.countToken (Token.ofRaw tok)) = .next p ∧
      step s = .next { s with pcmd := p, stream := ts, events := es } := by
  have ⟨hm, _, _, _, ⟨hc, hch, _⟩, _⟩ := h.decoding
  obtain ⟨p, hp⟩ := deinterleaveToken_next (tok := Token.ofRaw tok) (p := s.pcmd.countToken (Token.ofRaw tok))
    (by rwa [Pcmd.countToken_channels, hch])
  refine ⟨p, hp, ?_⟩
  rw [(stepRunsRunningCommand s .deinterleave (Pcmd.running_eq_deinterleave.2 hm)).1 es h.events,
    exec_deinterleave_token (s := { s with events := es }) hm h.obuf h.stream, hp, mapNext_next]

/-- A byte is consumed and the host takes the beat it may have completed (R143, R145, R66). -/
theorem byte {x : Byte} (h : s.Drained w c pre xs (rawByte x :: ts) (.pcmd :: .take :: es)) :
    ∃ t, runSteps 2 s = some t ∧ t.Drained w c pre (xs ++ [x]) ts es := by
  obtain ⟨p, hp, hstep⟩ := h.step_token
  rw [Token.ofRaw_rawByte] at hp
  have hdec : ({ s with pcmd := p, stream := ts, events := .take :: es } : State).Decoding w c pre (xs ++ [x]) :=
    h.decoding.byte h.obuf rfl hp
  obtain ⟨t, htake, hdrained⟩ := hdec.step_take rfl
  exact ⟨t, by rw [runSteps_succ hstep, runSteps_succ htake, runSteps], hdrained⟩

/-- The bytes are consumed one after the other (R65). -/
theorem bytes {ys : List Byte} (h : s.Drained w c pre xs (ys.map rawByte ++ ts) (promptHost ys.length)) :
    ∃ t, runSteps (2 * ys.length) s = some t ∧ t.Drained w c pre (xs ++ ys) ts (promptHost 0) := by
  induction ys generalizing s xs with
  | nil => exact ⟨s, rfl, by simpa using h⟩
  | cons y ys ih =>
    obtain ⟨u, hu, hdec⟩ := byte h
    obtain ⟨t, ht, hdec'⟩ := ih hdec
    refine ⟨t, ?_, by simpa using hdec'⟩
    rw [List.length_cons, Nat.mul_succ, Nat.add_comm, runSteps_add, hu, Option.bind_some, ht]

/-- END finishes the decode (R150). -/
theorem endOfInput {tok : RawToken} (h : s.Drained w c pre xs (tok :: ts) (.pcmd :: es)) (hkind : tokenKind tok = 1) :
    ∃ t, step s = .next t ∧ t.stream = ts ∧ t.Decoded w c pre xs (endError w c.toNat xs) := by
  obtain ⟨p, hp, hstep⟩ := h.step_token
  have ⟨_, _, _, _, hdec, _⟩ := h.decoding
  rw [Token.ofRaw_eq_endOfInput.2 hkind] at hp
  exact ⟨_, hstep, rfl, h.decoding.finish h.obuf rfl ((Host.Outcome.next.inj hp).symm.trans hdec.deinterleaveEnd)⟩

end State.Drained

/-- The whole command, from its acceptance to END (R154, R156). -/
theorem run_deinterleave {tokEnd : RawToken} (hm : s.pcmd.mode = .idle) (hv : s.pcmd.obuf.v = false)
    (hconfig : s.pcmd.config = BitVec.ofNat 16 w.bits ++ c) (hc : c ≠ 0) (hkind : tokenKind tokEnd = 1)
    (hs : s.stream = xs.map rawByte ++ tokEnd :: ts) (he : s.events = .regWrite 0x00 0x00000001 :: promptHost xs.length) :
    ∃ t, runSteps (1 + (2 * xs.length + 1)) s = some t ∧ t.stream = ts ∧ t.Decoded w c s.taken xs (endError w c.toNat xs) := by
  obtain ⟨u, hstep, hbegun⟩ := step_begins_drained hm hv hc hconfig he
  rw [hs] at hbegun
  obtain ⟨v, hrun, hall⟩ := hbegun.bytes
  obtain ⟨t, hend, hstream, hdec⟩ := hall.endOfInput hkind
  refine ⟨t, ?_, hstream, hdec⟩
  rw [Nat.add_comm, runSteps_succ hstep, runSteps_add, hrun, Option.bind_some, runSteps_succ hend, runSteps]

end

/-! ### The summaries -/

/-- Settles O54: the run ends as the source's decode does, and in 8-bit mode the samples are the bytes. -/
theorem deinterleave8Summary : Obligations.Deinterleave8Summary := by
  intro s c xs tokEnd rest hm hv hconfig hc hkind hs he
  obtain ⟨t, hrun, hstream, hmode, -, hdone, herr, hdec, -, htaken⟩ :=
    run_deinterleave (w := .bits8) hm hv hconfig hc hkind hs he
  have ⟨_, _, _, hcount, _, _, _, hres⟩ := hdec
  refine ⟨t, hrun, hstream, hmode, hdone, by rw [hres], by rw [hres], fun k hk => ?chan, ?beats, ?count, ?cursor, ?error⟩
  case chan => simp only [hdec.chan hk, payloadSamples, channelValues_map, Sample.value, asS8_eq_toInt]
  case beats => simp only [htaken, payloadSamples, sampleBeats_map, Sample.data, Sample.wide]
  case count => rw [hcount, BitVec.toNat_ofNat]
  case cursor => simpa [ResWidth.bits] using hdec.toNat_cur
  case error => simpa [endError_code, frameSize, ResWidth.bits] using herr

/-- Settles O55: the run ends as the source's decode does, and in 16-bit mode the samples are the words. -/
theorem deinterleave16Summary : Obligations.Deinterleave16Summary := by
  intro s c xs tokEnd rest hm hv hconfig hc hkind hs he
  obtain ⟨t, hrun, hstream, hmode, -, hdone, herr, hdec, -, htaken⟩ :=
    run_deinterleave (w := .bits16) hm hv hconfig hc hkind hs he
  have ⟨_, _, _, _, _, hpend, hlow, hres⟩ := hdec
  refine ⟨t, hrun, hstream, hmode, hdone, by rw [hres], by rw [hres], payloadWords_length xs,
    fun j x y hx hy => payloadWords_getElem? hx hy, fun k hk => ?chan, ?beats, hpend, ?low, ?cursor, ?error⟩
  case chan => simp only [hdec.chan hk, payloadSamples, channelValues_map, Sample.value]
  case beats => simp only [htaken, payloadSamples, sampleBeats_map, Sample.data, Sample.wide]
  case low => simpa [payloadLow, payloadPend] using hlow
  case cursor => simpa [ResWidth.bits] using hdec.toNat_cur
  case error => simpa [endError_code, frameSize, ResWidth.bits, Nat.mul_comm] using herr

end Sys2Proof.Machine
end

section
/-! PROOF. What STATUS says of a command's outcome: which steps write OVR, ERR and DONE (R180, R181, R185, R190, R216). -/

namespace Sys2Proof.Machine

/-! ### A CMD write while busy -/

/-- Settles O9: the listed write is a write of CMD while busy, which is `overrun`. -/
theorem busyCommandWriteSetsOverrun : Obligations.BusyCommandWriteSetsOverrun := by
  intro s w es he hb
  rw [step_cmdWrite he]
  exact writeCmd_busy hb

/-! ### OVR -/

/-- The acceptance of a command clears OVR, and no start check sets it (R184). -/
theorem startOf_acceptWord_ovr (i : Instr) (w : Word) (p : Pcmd) : (startOf i (p.acceptWord w)).ovr = false := by
  cases i with
  | deinterleave =>
    rcases startDeinterleave_cases (p.acceptWord w) with ⟨-, hs⟩ | ⟨-, -, hs⟩ | ⟨-, -, hs⟩ <;> simp [startOf, hs]
  | readU16 => rfl
  | readU32 => rfl

/-- A token of a READ leaves OVR as it was. -/
theorem readToken_ovr {tok : Token} {p q : Pcmd} (h : readToken tok p = .next q) : q.ovr = p.ovr := by
  rcases readToken_cases h with ⟨b, -, -, rfl⟩ | ⟨b, -, -, rfl⟩ | ⟨-, rfl⟩ <;> rfl

/-- A token of DEINTERLEAVE leaves OVR as it was. -/
theorem deinterleaveToken_ovr {tok : Token} {p q : Pcmd} (h : deinterleaveToken tok p = .next q) : q.ovr = p.ovr := by
  rcases deinterleaveToken_cases h with ⟨x, -, -, -, rfl⟩ | ⟨x, -, -, -, rfl⟩ | ⟨x, -, -, -, -, rfl⟩ | ⟨-, -, -, rfl⟩ |
    ⟨-, -, rfl⟩ | ⟨-, rfl⟩ <;> rfl

/-- A token leaves OVR as it was, whichever command takes it. -/
theorem tokenOf_ovr {i : Instr} {tok : Token} {p q : Pcmd} (h : tokenOf i tok p = .next q) : q.ovr = p.ovr := by
  cases i with
  | deinterleave => exact deinterleaveToken_ovr h
  | readU16 => exact readToken_ovr h
  | readU32 => exact readToken_ovr h

/-- Settles O49: of the kinds of step only a dropped CMD write sets OVR, and the duty rules it out. -/
theorem dutifulHostNeverOverruns : Obligations.DutifulHostNeverOverruns := by
  intro s t hduty hstep hovr
  cases step_kind hstep with
  | quiet hp => rwa [hp]
  | reset hp => rw [hp]; rfl
  | config v hp => rwa [hp]
  | beat hv hp => rwa [hp]
  | dropped w hb hp hc hr hw =>
    obtain ⟨hnone, -⟩ := hduty (Pcmd.busy_eq_true.2 hb)
    cases hw.symm.trans hnone
  | illegal w why hb hd hp => rw [hp]; rfl
  | accepted w i hb hd hp => rw [hp]; exact startOf_acceptWord_ovr i _ s.pcmd
  | token i tok hb hy hp => simpa [hovr] using tokenOf_ovr hp

/-! ### ERR -/

/-- The codes that name an error PCMD can produce (R180). -/
theorem ErrName.toNat_of_ofStatus_isSome {code : BitVec 4} (h : (ErrName.ofStatus code).isSome = true) :
    code.toNat ∈ [0, 1, 3, 4, 5, 6] := by
  revert code; decide

/-- The acceptance of a command leaves ERR at 0 or at a start check's code (R142, R184). -/
theorem startOf_acceptWord_err (i : Instr) (w : Word) (p : Pcmd) :
    (ErrName.ofStatus (startOf i (p.acceptWord w)).err).isSome = true := by
  cases i with
  | deinterleave =>
    rcases startDeinterleave_cases (p.acceptWord w) with ⟨-, hs⟩ | ⟨-, -, hs⟩ | ⟨-, -, hs⟩ <;>
      rw [startOf, hs] <;> rfl
  | readU16 => rfl
  | readU32 => rfl

/-- A token of a READ leaves ERR, or finishes with 0 or 1 (R112, R114). -/
theorem readToken_err {tok : Token} {p q : Pcmd} (h : readToken tok p = .next q) :
    q.err = p.err ∨ (ErrName.ofStatus q.err).isSome = true := by
  rcases readToken_cases h with ⟨b, -, -, rfl⟩ | ⟨b, -, -, rfl⟩ | ⟨-, rfl⟩
  · exact .inr rfl
  · exact .inl rfl
  · exact .inr rfl

/-- A token of DEINTERLEAVE leaves ERR, or finishes with 0, 4 or 1 (R149, R150). -/
theorem deinterleaveToken_err {tok : Token} {p q : Pcmd} (h : deinterleaveToken tok p = .next q) :
    q.err = p.err ∨ (ErrName.ofStatus q.err).isSome = true := by
  rcases deinterleaveToken_cases h with ⟨x, -, -, -, rfl⟩ | ⟨x, -, -, -, rfl⟩ | ⟨x, -, -, -, -, rfl⟩ | ⟨-, -, -, rfl⟩ |
    ⟨-, -, rfl⟩ | ⟨-, rfl⟩
  · exact .inl rfl
  · exact .inl rfl
  · exact .inl rfl
  · exact .inr rfl
  · exact .inr rfl
  · exact .inr rfl

/-- A token leaves ERR or writes a code that names an error, whichever command takes it. -/
theorem tokenOf_err {i : Instr} {tok : Token} {p q : Pcmd} (h : tokenOf i tok p = .next q) :
    q.err = p.err ∨ (ErrName.ofStatus q.err).isSome = true := by
  cases i with
  | deinterleave => exact deinterleaveToken_err h
  | readU16 => exact readToken_err h
  | readU32 => exact readToken_err h

/-- Every kind of step leaves ERR or writes a code that names an error PCMD can produce (R180, R181). -/
theorem StepKind.err {s t : State} (hk : StepKind s t) :
    t.pcmd.err = s.pcmd.err ∨ (ErrName.ofStatus t.pcmd.err).isSome = true := by
  cases hk with
  | quiet hp => exact .inl (by rw [hp])
  | reset hp => exact .inr (by rw [hp]; rfl)
  | config v hp => exact .inl (by rw [hp])
  | beat hv hp => exact .inl (by rw [hp])
  | dropped w hb hp => exact .inl (by rw [hp]; rfl)
  | illegal w why hb hd hp => exact .inr (by rw [hp]; rfl)
  | accepted w i hb hd hp => exact .inr (by rw [hp]; exact startOf_acceptWord_err i _ s.pcmd)
  | token i tok hb hy hp => simpa using tokenOf_err hp

/-- Settles O48: a kind of step that does not leave ERR writes a code that names an error, and those are the six. -/
theorem onlyKnownErrorCodesWritten : Obligations.OnlyKnownErrorCodesWritten := by
  intro s t hstep hne
  exact ErrName.toNat_of_ofStatus_isSome ((step_kind hstep).err.resolve_left hne)

/-! ### The outcome of a finished command -/

/-- Settles O47: at IDLE no token is consumed, so a step that neither resets nor writes CMD is quiet, a write of CONFIG or a beat. -/
theorem outcomeStaysUntilNextCommand : Obligations.OutcomeStaysUntilNextCommand := by
  intro s t hstep hm hreset hcmd
  cases step_kind hstep with
  | quiet hp => simp [hp, hm]
  | reset hp hc hr => cases hr.symm.trans hreset
  | config v hp => simp [hp, hm]
  | beat hv hp => simp [hp, hm]
  | dropped w hb => exact absurd hm hb
  | illegal w why hb hd hp hc hr hw => cases hw.symm.trans hcmd
  | accepted w i hb hd hp hc hr hw => cases hw.symm.trans hcmd
  | token i tok hb => cases hb.symm.trans (Pcmd.running_eq_none.2 hm)

end Sys2Proof.Machine
end

section
/-! PROOF. Reset sets every piece of PCMD's state (R210, R211), and a CONFIG write spares a running DEINTERLEAVE (R218). -/

namespace Sys2Proof.Machine

/-! ### Reset -/

/-- A listed reset sets PCMD and `reg_err` and nothing else (R210). -/
theorem step_reset {s : State} {es : List Event} (he : s.events = .rst :: es) :
    step s = .next ({ s with events := es } : State).resetStep :=
  step_listed he

/-- Settles O31: a listed reset is `resetStep`, which gives PCMD the reset state's values, and those are R211's. -/
theorem resetSetsEveryRegister : Obligations.ResetSetsEveryRegister :=
  ⟨fun _ _ he => step_reset he, rfl, rfl, rfl, rfl, rfl, rfl, rfl, rfl⟩

/-! ### A running DEINTERLEAVE does not consult CONFIG -/

/-- The cursor's modulus is LCONFIG's channel count, so a completed sample does not consult CONFIG (R29, R146). -/
theorem Pcmd.completeSample_withConfig (smp : Sample) (v : Word) (p : Pcmd) :
    (p.withConfig v).completeSample smp = mapNext (Pcmd.withConfig v) (p.completeSample smp) := by
  by_cases hc : p.channels = 0
  · rw [Pcmd.completeSample_of_noChannels hc, Pcmd.completeSample_of_noChannels (p := p.withConfig v) hc, mapNext_fault]
  · rw [Pcmd.completeSample_of_ne hc, Pcmd.completeSample_of_ne (p := p.withConfig v) hc]
    rfl

/-- The sample width is LCONFIG's, so a byte does not consult CONFIG (R29, R143, R145). -/
theorem Pcmd.deinterleaveByte_withConfig (x : Byte) (v : Word) (p : Pcmd) :
    (p.withConfig v).deinterleaveByte x = mapNext (Pcmd.withConfig v) (p.deinterleaveByte x) := by
  have hbits : (p.withConfig v).bits = p.bits := rfl
  have hpend : (p.withConfig v).pend = p.pend := rfl
  rw [Pcmd.deinterleaveByte, Pcmd.deinterleaveByte, hbits, hpend]
  split_ifs
  · exact p.completeSample_withConfig _ v
  · rfl
  · exact Pcmd.completeSample_withConfig _ v { p with low := 0, pend := false }

/-- END is checked by the cursor and PEND, which does not consult CONFIG (R150). -/
theorem Pcmd.deinterleaveEnd_withConfig (v : Word) (p : Pcmd) :
    (p.withConfig v).deinterleaveEnd = p.deinterleaveEnd.withConfig v := by
  have hcur : (p.withConfig v).cur = p.cur := rfl
  have hpend : (p.withConfig v).pend = p.pend := rfl
  rw [Pcmd.deinterleaveEnd, Pcmd.deinterleaveEnd, hcur, hpend]
  split <;> rfl

/-- DEINTERLEAVE's token step does not consult CONFIG (R218). -/
theorem deinterleaveToken_withConfig (tok : Token) (v : Word) (p : Pcmd) :
    deinterleaveToken tok (p.withConfig v) = mapNext (Pcmd.withConfig v) (deinterleaveToken tok p) := by
  cases tok with
  | byte x => exact p.deinterleaveByte_withConfig x v
  | endOfInput => exact congrArg Host.Outcome.next (p.deinterleaveEnd_withConfig v)
  | err => rfl

/-- A DEINTERLEAVE that runs does not consult CONFIG (R218). -/
theorem exec_deinterleave_withConfig {s : State} (hm : s.pcmd.mode = .deint) (v : Word) :
    exec .deinterleave (s.withConfig v) = mapNext (State.withConfig v) (exec .deinterleave s) := by
  have hr := Pcmd.running_eq_deinterleave.2 hm
  rw [exec_running hr, exec_running (s := s.withConfig v) hr]
  exact consume_withConfig (fun tok p => deinterleaveToken_withConfig tok v p) s

/-- Settles O23: the write is CONFIG's, a running DEINTERLEAVE goes by LCONFIG alone, and the next one latches what CONFIG then holds. -/
theorem configWriteSparesRunningDeinterleave : Obligations.ConfigWriteSparesRunningDeinterleave := by
  intro s v es
  refine ⟨fun hm => ⟨fun he => ?_, exec_deinterleave_withConfig hm v⟩, fun hm => ?_⟩
  · exact (step_listed he).trans (regWrite_config v _)
  · exact ⟨_, exec_idle (s := s.withConfig v) hm, startDeinterleave_lconfig _⟩

end Sys2Proof.Machine
end
